-- ==== Sys2Proof/Word.lean ====
section
/-! DEFINITION. The widths of the values the block handles (spec rules R6, R7, R70): bytes, words,
patterns, command beats, and their two fields. All of them are what the spec calls unsigned bit
vectors. -/

namespace Sys2Proof

/-- A byte of a span, of a frame, or an operand: 8 bits (R7). -/
abbrev Byte := BitVec 8

/-- A word of the word buffer W: 16 bits (R7, R22). -/
abbrev Word := BitVec 16

/-- A pattern of the float registers F: 32 bits, read by the consumer as an IEEE-754 float (R7, R25). -/
abbrev Pattern := BitVec 32

/-- A command beat: 12 bits, `op` above `arg` (R70). -/
abbrev Beat := BitVec 12

/-- The operation field of a beat, `beat[11:8]` (R70). -/
abbrev OpBits := BitVec 4

end Sys2Proof
end

