-- ==== Sys2Proof/Config.lean ====
section
/-! DEFINITION. The parameters of the block (spec rule R6 and its table).

`WCAP`, the number of entries of the word buffer, is the one OPEN parameter (U1, D10). It is not a
constant here: a state carries a buffer of `WCAP` entries, the capacity is that buffer's length, and
no command changes it; so a statement about every state is a statement about every `WCAP`. Only
`State.reset`, which must be one state, takes the reference value (log entry 2). -/

namespace Sys2Proof.Config

/-- The least legal `WCAP`: a measurement's twenty words fit (R6, D10). -/
def wcapMin : Nat := 20

/-- The greatest legal `WCAP`: the expected word count travels in 8 bits (R6, D10). -/
def wcapMax : Nat := 255

/-- The reference value of `WCAP`, the one the spec's test vectors use (R6). -/
def referenceWcap : Nat := 32

end Sys2Proof.Config
end

