-- ==== Sys2Proof/Syntax.lean ====
section
/-! DEFINITION. The command set, CKV command set version 1 (spec rules R2, R71): one constructor per
row of `spec/opcode_table.json`. A command of format C0 ignores `arg` and so has no operand (R70,
R84); a command of format CA has the one operand `arg`, always 8 bits (R72). -/

namespace Sys2Proof

/-- A command. The three reserved `op` values are commands too: the spec defines what they do (R172). -/
inductive Instr where
  /-- `NOP`, R170. -/
  | nop
  /-- `CRC.INIT`, R106. -/
  | crcInit
  /-- `CRC.UPD b`, R107: `b` is the byte to absorb. -/
  | crcUpd (b : Byte)
  /-- `CRC.GET`, R108. -/
  | crcGet
  /-- `CRC.CHK c`, R109: `c` is the checksum byte to compare. -/
  | crcChk (c : Byte)
  /-- `WD.START n`, R129: `n` is the expected word count. -/
  | wdStart (n : Byte)
  /-- `WD.BYTE x`, R130: `x` is the frame byte. -/
  | wdByte (x : Byte)
  /-- `WD.END`, R131. -/
  | wdEnd
  /-- `WD.RDW i`, R132: `i` is the word index. -/
  | wdRdw (i : Byte)
  /-- `MD.CONV`, R157. -/
  | mdConv
  /-- `MD.RDF i`, R158: `i` is the float index. -/
  | mdRdf (i : Byte)
  /-- `MD.INV`, R159. -/
  | mdInv
  /-- `STAT`, R171. -/
  | stat
  /-- Reserved `op` 0xD, R172. -/
  | reservedD
  /-- Reserved `op` 0xE, R172. -/
  | reservedE
  /-- Reserved `op` 0xF, R172. -/
  | reservedF
  deriving DecidableEq, Repr

end Sys2Proof
end

