-- ==== Sys2Proof/WellFormed.lean ====
section
/-! DEFINITION. What is well formed.

An instruction: always. The only operand is 8 bits wide by its type, every `op` spells a row and an
`arg` out of range for its command is no illegal encoding (R82, R84), so the check of an instruction
has nothing to refuse. What CAN be ill formed is the raw material around it: a number that is no
12-bit beat (R70), and a word buffer whose length is no legal `WCAP` (R6). -/

namespace Sys2Proof

/-- Every command, with every operand, is well formed (R82, R84). -/
def Instr.wellFormed : Instr → Bool
  | .nop | .crcInit | .crcUpd _ | .crcGet | .crcChk _ | .wdStart _ | .wdByte _ | .wdEnd
  | .wdRdw _ | .mdConv | .mdRdf _ | .mdInv | .stat | .reservedD | .reservedE | .reservedF => true

/-- The number `w` is a 12-bit beat (R70: "There is one length and one layout"). -/
def wellFormedBeat (w : Nat) : Bool := decide (w < 4096)

/-- `wcap` is a legal capacity of the word buffer (R6: 20 <= WCAP <= 255). -/
def wellFormedCapacity (wcap : Nat) : Bool :=
  decide (Config.wcapMin ≤ wcap) && decide (wcap ≤ Config.wcapMax)

end Sys2Proof
end

