-- ==== Sys2Proof/Decode.lean ====
section
/-! DEFINITION. The decoder and the encoder of the 12-bit command beat (spec rules R70, R71, R72, R82,
R84). Decoding reads the 12 bits and nothing else and is total: every beat spells exactly one row. -/

namespace Sys2Proof

/-- The sixteen values of the `op` field, by the name of their row (R71). -/
inductive Op where
  | nop | crcInit | crcUpd | crcGet | crcChk | wdStart | wdByte | wdEnd
  | wdRdw | mdConv | mdRdf | mdInv | stat | reservedD | reservedE | reservedF
  deriving DecidableEq, Repr

/-- The row that four `op` bits select, most significant bit first (R71). -/
def Op.ofBits (op : OpBits) : Op :=
  match op[3], op[2], op[1], op[0] with
  | false, false, false, false => .nop
  | false, false, false, true  => .crcInit
  | false, false, true,  false => .crcUpd
  | false, false, true,  true  => .crcGet
  | false, true,  false, false => .crcChk
  | false, true,  false, true  => .wdStart
  | false, true,  true,  false => .wdByte
  | false, true,  true,  true  => .wdEnd
  | true,  false, false, false => .wdRdw
  | true,  false, false, true  => .mdConv
  | true,  false, true,  false => .mdRdf
  | true,  false, true,  true  => .mdInv
  | true,  true,  false, false => .stat
  | true,  true,  false, true  => .reservedD
  | true,  true,  true,  false => .reservedE
  | true,  true,  true,  true  => .reservedF

/-- The `op` value of a row, as the table of R71 prints it. -/
def Op.toBits : Op → OpBits
  | .nop       => 0x0#4
  | .crcInit   => 0x1#4
  | .crcUpd    => 0x2#4
  | .crcGet    => 0x3#4
  | .crcChk    => 0x4#4
  | .wdStart   => 0x5#4
  | .wdByte    => 0x6#4
  | .wdEnd     => 0x7#4
  | .wdRdw     => 0x8#4
  | .mdConv    => 0x9#4
  | .mdRdf     => 0xA#4
  | .mdInv     => 0xB#4
  | .stat      => 0xC#4
  | .reservedD => 0xD#4
  | .reservedE => 0xE#4
  | .reservedF => 0xF#4

/-- The two formats of R70: C0 ignores `arg`, CA uses it. -/
inductive Format where
  | c0 | ca
  deriving DecidableEq, Repr

/-- The format of a row (R71). -/
def Op.format : Op → Format
  | .crcUpd | .crcChk | .wdStart | .wdByte | .wdRdw | .mdRdf => .ca
  | .nop | .crcInit | .crcGet | .wdEnd | .mdConv | .mdInv | .stat
  | .reservedD | .reservedE | .reservedF => .c0

/-- One row of the table of R71: a beat spells the row's command when `beat & mask == match`. -/
structure OpcodeRow where
  mnemonic : String
  op       : Op
  bitsSet  : Beat
  mask     : Beat
  deriving DecidableEq, Repr

/-- The table of R71, as the spec prints it (`match` is called `bitsSet`, since `match` is a Lean
keyword). -/
def opcodeTable : List OpcodeRow :=
  [⟨"NOP", .nop, 0x000#12, 0xF00#12⟩,
   ⟨"CRC.INIT", .crcInit, 0x100#12, 0xF00#12⟩,
   ⟨"CRC.UPD", .crcUpd, 0x200#12, 0xF00#12⟩,
   ⟨"CRC.GET", .crcGet, 0x300#12, 0xF00#12⟩,
   ⟨"CRC.CHK", .crcChk, 0x400#12, 0xF00#12⟩,
   ⟨"WD.START", .wdStart, 0x500#12, 0xF00#12⟩,
   ⟨"WD.BYTE", .wdByte, 0x600#12, 0xF00#12⟩,
   ⟨"WD.END", .wdEnd, 0x700#12, 0xF00#12⟩] ++
  [⟨"WD.RDW", .wdRdw, 0x800#12, 0xF00#12⟩,
   ⟨"MD.CONV", .mdConv, 0x900#12, 0xF00#12⟩,
   ⟨"MD.RDF", .mdRdf, 0xA00#12, 0xF00#12⟩,
   ⟨"MD.INV", .mdInv, 0xB00#12, 0xF00#12⟩,
   ⟨"STAT", .stat, 0xC00#12, 0xF00#12⟩,
   ⟨"RESERVED.D", .reservedD, 0xD00#12, 0xF00#12⟩,
   ⟨"RESERVED.E", .reservedE, 0xE00#12, 0xF00#12⟩,
   ⟨"RESERVED.F", .reservedF, 0xF00#12, 0xF00#12⟩]

/-- A beat spells a row (R71). -/
def OpcodeRow.spelledBy (row : OpcodeRow) (beat : Beat) : Bool := (beat &&& row.mask) == row.bitsSet

/-- `op = beat[11:8]` (R70). -/
def beatOp (beat : Beat) : OpBits := beat.extractLsb' 8 4

/-- `arg = beat[7:0]` (R70). -/
def beatArg (beat : Beat) : Byte := beat.extractLsb' 0 8

/-- The beat of an `op` and an `arg` (R70). -/
def joinBeat (op : OpBits) (arg : Byte) : Beat := op ++ arg

/-- The command of a row with an operand; a C0 row drops it (R70, R84). -/
def Instr.ofOp (op : Op) (arg : Byte) : Instr :=
  match op with
  | .nop       => .nop
  | .crcInit   => .crcInit
  | .crcUpd    => .crcUpd arg
  | .crcGet    => .crcGet
  | .crcChk    => .crcChk arg
  | .wdStart   => .wdStart arg
  | .wdByte    => .wdByte arg
  | .wdEnd     => .wdEnd
  | .wdRdw     => .wdRdw arg
  | .mdConv    => .mdConv
  | .mdRdf     => .mdRdf arg
  | .mdInv     => .mdInv
  | .stat      => .stat
  | .reservedD => .reservedD
  | .reservedE => .reservedE
  | .reservedF => .reservedF

/-- THE DECODER: total on every 12-bit beat (R82). -/
def decode (beat : Beat) : Instr := Instr.ofOp (Op.ofBits (beatOp beat)) (beatArg beat)

/-- The row of a command. -/
def Instr.op : Instr → Op
  | .nop       => .nop
  | .crcInit   => .crcInit
  | .crcUpd _  => .crcUpd
  | .crcGet    => .crcGet
  | .crcChk _  => .crcChk
  | .wdStart _ => .wdStart
  | .wdByte _  => .wdByte
  | .wdEnd     => .wdEnd
  | .wdRdw _   => .wdRdw
  | .mdConv    => .mdConv
  | .mdRdf _   => .mdRdf
  | .mdInv     => .mdInv
  | .stat      => .stat
  | .reservedD => .reservedD
  | .reservedE => .reservedE
  | .reservedF => .reservedF

/-- The operand of a command; a C0 command is written with 0x00, as the spec's examples write it (R84). -/
def Instr.arg : Instr → Byte
  | .crcUpd b  => b
  | .crcChk c  => c
  | .wdStart n => n
  | .wdByte x  => x
  | .wdRdw i   => i
  | .mdRdf i   => i
  | .nop | .crcInit | .crcGet | .wdEnd | .mdConv | .mdInv | .stat
  | .reservedD | .reservedE | .reservedF => 0x00#8

/-- THE ENCODER: the beat of a command (R70, R71). -/
def encode (i : Instr) : Beat := joinBeat i.op.toBits i.arg

/-- What the decoder reads from an opcode-table word: the bits of `w` below `nbits`, those above zero.
A word that is no 12-bit beat is refused (R70). -/
def decodeTableWord (nbits w : Nat) : Option Instr :=
  let v := w % 2 ^ nbits
  if wellFormedBeat v then some (decode (BitVec.ofNat 12 v)) else none

end Sys2Proof
end

