-- ==== Sys2Proof/Machine/State.lean ====
section
/-! DEFINITION. The state of the machine, as plain data (spec rules R20, R21, R41, R209).

`Block` is the spec's state: the fifteen items of R20 and nothing else. `State` puts beside it what
stands outside the block but what one `step : State → Outcome` must carry: the input pins of the
clock edges to come, the response channel, and whether the block has been reset since power-up
(log entry 1). -/

namespace Sys2Proof.Machine

/-- Position inside the current group (R30). Three values: `phase` = 3 never occurs (R40 a, U6), so it
is not representable (log entry 11). -/
inductive Phase where
  | p0 | p1 | p2
  deriving DecidableEq, Repr

/-- What `wd_code` records: the verdict of the last WD.END since the last WD.START or reset (R37).
Three values: 3 to 7 never occur (R40 e, U6; log entry 11). -/
inductive Verdict where
  | ok | eCrc | eLen
  deriving DecidableEq, Repr

/-- The eight response codes (R181: "A model's response code type has exactly these constructors"). -/
inductive Code where
  | ok | eCrc | eLen | eSeq | eNores | eIdx | eCap | eIll
  deriving DecidableEq, Repr

/-- A response beat: a code and 32 bits of data (R73). -/
structure Response where
  code : Code
  data : BitVec 32
  deriving DecidableEq, Repr

/-- The input pins at one rising edge of `clk` (R209). -/
structure Pins where
  /-- `rst`, synchronous reset, active high. -/
  rst      : Bool
  /-- `cmd_valid`: the host presents a command beat. -/
  cmdValid : Bool
  /-- `cmd_op`, `beat[11:8]`. -/
  cmdOp    : OpBits
  /-- `cmd_arg`, `beat[7:0]`. -/
  cmdArg   : Byte
  deriving DecidableEq, Repr

/-- The complete state of the block: the fifteen items of R20. -/
structure Block where
  /-- running checksum of the host-driven checksum (R28) -/
  crc    : Byte
  /-- first data byte of the group being received (R29) -/
  b0     : Byte
  /-- second data byte of the group being received (R29) -/
  b1     : Byte
  /-- position inside the current group (R30) -/
  phase  : Phase
  /-- number of complete groups received in the open frame (R30) -/
  gidx   : BitVec 8
  /-- `open`: a frame is open (R32) -/
  isOpen : Bool
  /-- `crc_err`: a group of the open frame failed its checksum (R35) -/
  crcErr : Bool
  /-- `over`: a byte arrived after `3 * expect` bytes (R35) -/
  isOver : Bool
  /-- expected word count of the current or last frame (R36) -/
  expect : BitVec 8
  /-- number of valid words in W (R36) -/
  wcount : BitVec 8
  /-- W[0 .. wcount-1] is the result of a successful decode (R33) -/
  wvalid : Bool
  /-- `wd_code`: the last WD.END verdict (R37) -/
  wdCode : Verdict
  /-- the word buffer W[0 .. WCAP-1] (R22); its length is `WCAP` (log entry 2) -/
  W      : List Word
  /-- the float registers F[0 .. 9] (R25) -/
  F      : Vector Pattern 10
  /-- F holds a converted measurement that has not been invalidated (R34) -/
  fvalid : Bool
  deriving DecidableEq, Repr

/-- `WCAP` of a block: the number of entries of its word buffer (R6, R22). -/
abbrev Block.wcap (b : Block) : Nat := b.W.length

/-- The block and what stands around it (log entry 1). -/
structure State where
  /-- the block's own state (R20) -/
  block     : Block
  /-- the input pins of the edges to come, next edge first: the input of the run (R9, R21, R209) -/
  inputs    : List Pins
  /-- the response channel in the cycle after the last edge (R73, R223) -/
  rsp       : Option Response
  /-- `rst` has been seen since power-up (R213) -/
  resetSeen : Bool
  deriving DecidableEq, Repr

/-- Why the machine can stop with a fault. The spec has no trap and no stop (R180); the one
constructor answers only in states the invariant R40 excludes. -/
inductive Fault where
  /-- Raised by WD.BYTE, WD.RDW and MD.CONV when they would touch an index at which W has no entry
  (R50 b: indices 0 to WCAP-1). No state reached from reset raises it (R40). SAFE: the model stops
  where the spec gives no behaviour at all (log entry 9). -/
  | wordIndexOutsideBuffer
  deriving DecidableEq, Repr

/-- Why the machine can refuse to go on. (An error RESPONSE is no refusal in this sense: it is a next
state.) -/
inductive Refusal where
  /-- Raised by an arm of `exec` whose instruction has no meaning yet; no arm of this model is one.
  SAFE. -/
  | notModelled (mnemonic : String)
  /-- Raised by a command accepted before the first reset after power-up (R213: "No command has a
  meaning then: a model refuses to run a command list that does not start from a reset state").
  SAFE (log entry 10). -/
  | beforeFirstReset
  deriving DecidableEq, Repr

/-- The block after reset with a word buffer of `wcap` entries: eleven fields as R41 states them;
`b0`, `b1`, W and F, which R41 leaves unspecified, at zero (DESIGN CHOICE, log entries 3, 4, 5). -/
def Block.reset (wcap : Nat) : Block where
  crc    := 0xFF#8
  b0     := 0x00#8
  b1     := 0x00#8
  phase  := .p0
  gidx   := 0#8
  isOpen := false
  crcErr := false
  isOver := false
  expect := 0#8
  wcount := 0#8
  wvalid := false
  wdCode := .ok
  W      := List.replicate wcap 0x0000#16
  F      := Vector.replicate 10 0x00000000#32
  fvalid := false

/-- The machine right after reset, with a word buffer of `wcap` entries, no command presented and the
response channel empty (R41, R210). -/
def State.resetFor (wcap : Nat) : State where
  block     := Block.reset wcap
  inputs    := []
  rsp       := none
  resetSeen := true

/-- The machine right after reset, with the reference `WCAP` of the spec's test vectors (DESIGN
CHOICE, log entry 2). -/
def State.reset : State := State.resetFor Config.referenceWcap

/-- The machine after power-up and before its first reset: any block at all (R213, U3). That its
response channel is empty before the first edge is the model's choice: the spec gives `rsp_valid` only
in the cycle after an edge (DESIGN CHOICE, log entry 18). -/
def State.powerUp (anyBlock : Block) : State where
  block     := anyBlock
  inputs    := []
  rsp       := none
  resetSeen := false

end Sys2Proof.Machine
end

