-- ==== Sys2Proof/Machine/Operands.lean ====
section
/-! DEFINITION. Operand forms and the values assembled from several parts (spec rules R52, R53, R55,
R72, R81). Nothing is scaled, shifted or sign-extended. -/

namespace Sys2Proof.Machine

/-- `arg` as a count or an index: a natural number, 0 to 255 (R72). -/
abbrev argNat (arg : Byte) : Nat := arg.toNat

/-- A word from the two data bytes of a group, first byte high (R52, R81). -/
def joinBytes (hi lo : Byte) : Word := hi ++ lo

/-- A pattern from two words, earlier word high (R53, R81). -/
def joinWords (hi lo : Word) : Pattern := hi ++ lo

/-- `word[15:8]`, the first byte of the group (R52). -/
def wordHi (w : Word) : Byte := w.extractLsb' 8 8

/-- `word[7:0]`, the second byte of the group (R52). -/
def wordLo (w : Word) : Byte := w.extractLsb' 0 8

/-- `pattern[31:16]`, the earlier word of the pair (R53). -/
def patternHi (p : Pattern) : Word := p.extractLsb' 16 16

/-- `pattern[15:0]`, the later word of the pair (R53). -/
def patternLo (p : Pattern) : Word := p.extractLsb' 0 16

/-- `zext_32` of a byte or a count (R8, R55). -/
def zextByte (v : Byte) : BitVec 32 := v.zeroExtend 32

/-- `zext_32` of a word (R8, R55). -/
def zextWord (w : Word) : BitVec 32 := w.zeroExtend 32

/-- The first `n` entries of a list, if it has so many (R51: MD.CONV reads W[0 .. 19]). -/
def firstEntries (n : Nat) (l : List Word) : Option (Vector Word n) :=
  if h : n ≤ l.length then some ⟨(l.take n).toArray, by simp [h]⟩ else none

end Sys2Proof.Machine
end

