-- ==== Sys2Proof/Machine/Ops.lean ====
section
/-! DEFINITION. The shared operations: responding and refusing, which every command ends in exactly
once (R8, R73); reading and writing W and F by index; the reset event (R210, R211); the pins. There is
no trap to enter and none to return from (R180, R193, R195): an error is a response. -/

namespace Sys2Proof.Machine

/-- `respond(code, data)` with the command's new block: the one response of the command, and all its
writes together (R8, R73). -/
def respond (b : Block) (code : Code) (data : BitVec 32) (s : State) :
    Host.Outcome State Fault Refusal :=
  .next { s with block := b, rsp := some ⟨code, data⟩ }

/-- `refuse(code)`: `respond(code, 0)` with no state write at all (R8). -/
def refuse (code : Code) (s : State) : Host.Outcome State Fault Refusal :=
  respond s.block code 0#32 s

/-- `W[i]`, if W has that entry (R50 b). -/
def readW (i : Nat) (b : Block) : Option Word := b.W[i]?

/-- `W[i] <- w`, if W has that entry (R50 b). -/
def writeW (i : Nat) (w : Word) (b : Block) : Option Block :=
  if i < b.wcap then some { b with W := b.W.set i w } else none

/-- `F[i]`, if F has that register: 0 <= i < 10 (R50 c). -/
def readF (i : Nat) (b : Block) : Option Pattern := b.F[i]?

/-- The reset event on a block: the eleven fields of R41 take their reset values; `b0`, `b1`, W and F
keep their previous contents (R211). -/
def resetBlock (b : Block) : Block :=
  { b with
    crc := 0xFF#8, phase := .p0, gidx := 0#8, isOpen := false, crcErr := false, isOver := false,
    expect := 0#8, wcount := 0#8, wvalid := false, wdCode := .ok, fvalid := false }

/-- The reset event (R210): at an edge with `rst` = 1 the block is reset and `rsp_valid` is 0 in the
following cycle. -/
def resetEvent (s : State) : State :=
  { s with block := resetBlock s.block, rsp := none, resetSeen := true }

/-- An edge at which no command is accepted: nothing changes, and the response channel is empty in the
following cycle (R223). -/
def idleEdge (s : State) : State := { s with rsp := none }

/-- The pins when the host presents nothing. -/
def Pins.idle : Pins := ⟨false, false, 0x0#4, 0x00#8⟩

/-- The pins when the host asserts reset. -/
def Pins.reset : Pins := ⟨true, false, 0x0#4, 0x00#8⟩

/-- The pins when the host presents a beat (R209: `cmd_op` is `beat[11:8]`, `cmd_arg` is `beat[7:0]`). -/
def Pins.ofBeat (beat : Beat) : Pins := ⟨false, true, beatOp beat, beatArg beat⟩

/-- The beat on the pins (R209). -/
def Pins.beat (p : Pins) : Beat := joinBeat p.cmdOp p.cmdArg

/-- `cmd_ready` in the reference timing: 1 in every cycle in which `rst` = 0 (R210, R223). -/
def Pins.cmdReady (p : Pins) : Bool := !p.rst

/-- A command is accepted at an edge where `rst` = 0, `cmd_valid` = 1 and `cmd_ready` = 1 (R209). -/
def Pins.accepted (p : Pins) : Bool := !p.rst && p.cmdValid && p.cmdReady

/-- The pins at the next edge; after the last one listed the host presents nothing (log entry 7). -/
def nextPins (s : State) : Pins := s.inputs.headD Pins.idle

/-- The state once the pins of the next edge have been taken. -/
def takePins (s : State) : State := { s with inputs := s.inputs.tail }

end Sys2Proof.Machine
end

