-- ==== Sys2Proof/Machine/ChecksumEngine.lean ====
section
/-! DEFINITION. The Checksum Engine: the checksum function `crc8`, normative from the source (spec
rules R100 to R104), and the four CRC commands (R106 to R109). -/

namespace Sys2Proof.Machine

/-- The polynomial (R6, R100). -/
def crcPoly : Byte := 0x31#8

/-- The initial value (R6, R102). -/
def crcInitial : Byte := 0xFF#8

/-- `crc8_step(x)`: shift left by one, truncated, and XOR the polynomial if the high bit was set
before the shift (R100). -/
def crc8Step (x : Byte) : Byte :=
  if x[7] then (x <<< 1) ^^^ crcPoly else x <<< 1

/-- `crc8_step` applied `k` times in a row. -/
def crc8Steps : Nat → Byte → Byte
  | 0, x => x
  | k + 1, x => crc8Steps k (crc8Step x)

/-- `crc8_update(c, b)`: XOR the byte in, then exactly eight steps (R101). -/
def crc8Update (c b : Byte) : Byte := crc8Steps 8 (c ^^^ b)

/-- The running value after a list of bytes, first byte first, started at `c` (R102, R111). -/
def crc8From (c : Byte) (bytes : List Byte) : Byte := bytes.foldl crc8Update c

/-- `crc8(bytes)`: the running value after the last byte, with nothing more done to it (R102, R103). -/
def crc8 (bytes : List Byte) : Byte := crc8From crcInitial bytes

/-- CRC.INIT: start a new checksum (R106). -/
def execCrcInit (s : State) : Host.Outcome State Fault Refusal :=
  respond { s.block with crc := crcInitial } .ok 0#32 s

/-- CRC.UPD b: absorb one byte (R107). -/
def execCrcUpd (b : Byte) (s : State) : Host.Outcome State Fault Refusal :=
  respond { s.block with crc := crc8Update s.block.crc b } .ok 0#32 s

/-- CRC.GET: read the running value (R108). -/
def execCrcGet (s : State) : Host.Outcome State Fault Refusal :=
  respond s.block .ok (zextByte s.block.crc) s

/-- CRC.CHK c: compare the running value with a received checksum byte (R109). -/
def execCrcChk (c : Byte) (s : State) : Host.Outcome State Fault Refusal :=
  if s.block.crc = c then respond s.block .ok 0#32 s else respond s.block .eCrc 0#32 s

end Sys2Proof.Machine
end

