-- ==== Sys2Proof/Machine/Flags.lean ====
section
/-! DEFINITION. The flag computations and the numeric encodings of codes and status (spec rules R30,
R35, R37, R38, R123, R131, R181). -/

namespace Sys2Proof.Machine

/-- The number of a response code (R181). -/
def Code.toBits : Code → BitVec 3
  | .ok     => 0#3
  | .eCrc   => 1#3
  | .eLen   => 2#3
  | .eSeq   => 3#3
  | .eNores => 4#3
  | .eIdx   => 5#3
  | .eCap   => 6#3
  | .eIll   => 7#3

/-- The class of a code: none, verdict or refusal (R180, R181); here, whether it is a refusal. -/
def Code.isRefusal : Code → Bool
  | .eSeq | .eNores | .eIdx | .eCap | .eIll => true
  | .ok | .eCrc | .eLen => false

/-- The response code that a verdict records (R37). -/
def Verdict.toCode : Verdict → Code
  | .ok   => .ok
  | .eCrc => .eCrc
  | .eLen => .eLen

/-- The 3 bits of `wd_code` (R37, R38). -/
def Verdict.toBits (v : Verdict) : BitVec 3 := v.toCode.toBits

/-- The 2 bits of `phase`: the number of bytes of the current group received (R30). -/
def Phase.toBits : Phase → BitVec 2
  | .p0 => 0#2
  | .p1 => 1#2
  | .p2 => 2#2

/-- The number of bytes of the current group received (R30). -/
def Phase.toNat (p : Phase) : Nat := p.toBits.toNat

/-- A group `hi lo c` passes its check: `c == crc8([hi, lo])` (R74, R123). -/
def groupPasses (hi lo c : Byte) : Bool := c == crc8 [hi, lo]

/-- All `3 * expect` bytes of the frame have been counted (R130: "one too many" from here on). -/
def frameFull (b : Block) : Bool := b.gidx == b.expect

/-- The number of bytes counted so far in the open frame (R30). -/
def bytesCounted (b : Block) : Nat := 3 * b.gidx.toNat + b.phase.toNat

/-- The length test of WD.END: `over == 0 and phase == 0 and gidx == expect` (R131). -/
def frameLengthOk (b : Block) : Bool := !b.isOver && b.phase == .p0 && frameFull b

/-- The verdict of WD.END: length before checksum (R131, R192). -/
def frameVerdict (b : Block) : Verdict :=
  if frameLengthOk b then (if b.crcErr then .eCrc else .ok) else .eLen

/-- The 32-bit STATUS value (R38, R171):
`0x00 ∥ expect ∥ wcount ∥ 0b00 ∥ wd_code ∥ fvalid ∥ wvalid ∥ open`. -/
def statusWord (b : Block) : BitVec 32 :=
  0x00#8 ++ b.expect ++ b.wcount ++ 0#2 ++ b.wdCode.toBits ++
    BitVec.ofBool b.fvalid ++ BitVec.ofBool b.wvalid ++ BitVec.ofBool b.isOpen

end Sys2Proof.Machine
end

