-- ==== Sys2Proof/Machine/MeasurementDecoder.lean ====
section
/-! DEFINITION. The Measurement Decoder: the pure function `decode_measurement`, normative from the
source (spec rules R150 to R156), and its three commands (R157 to R159). No bit of a pattern is ever
looked at (R152, R153, R154). -/

namespace Sys2Proof.Machine

/-- `decode_measurement(words)`: `p[i] = words[2i] ∥ words[2i+1]` (R151, R156). -/
def decodeMeasurement (words : Vector Word 20) : Vector Pattern 10 :=
  Vector.ofFn fun i => joinWords words[2 * i.val] words[2 * i.val + 1]

/-- MD.CONV: convert the twenty words in W into the ten float registers (R157). -/
def execMdConv (s : State) : Host.Outcome State Fault Refusal :=
  if s.block.wvalid && s.block.wcount == 20#8 then
    match firstEntries 20 s.block.W with
    | some ws => respond { s.block with F := decodeMeasurement ws, fvalid := true } .ok 0#32 s
    | none => .fault .wordIndexOutsideBuffer
  else refuse .eNores s

/-- MD.RDF i: read float register `i` (R158). -/
def execMdRdf (i : Byte) (s : State) : Host.Outcome State Fault Refusal :=
  if s.block.fvalid then
    match readF (argNat i) s.block with
    | some p => respond s.block .ok p s
    | none => refuse .eIdx s
  else refuse .eNores s

/-- MD.INV: mark the held measurement invalid (R159). -/
def execMdInv (s : State) : Host.Outcome State Fault Refusal :=
  respond { s.block with fvalid := false } .ok 0#32 s

end Sys2Proof.Machine
end

