-- ==== Sys2Proof/Machine/System.lean ====
section
/-! DEFINITION. The system commands NOP and STAT and the three reserved `op` values (spec rules R170
to R172). -/

namespace Sys2Proof.Machine

/-- NOP: do nothing (R170). -/
def execNop (s : State) : Host.Outcome State Fault Refusal := respond s.block .ok 0#32 s

/-- STAT: read the status word (R171). -/
def execStat (s : State) : Host.Outcome State Fault Refusal :=
  respond s.block .ok (statusWord s.block) s

/-- Reserved `op` 0xD: E_ILL, always (R172). -/
def execReservedD (s : State) : Host.Outcome State Fault Refusal := refuse .eIll s

/-- Reserved `op` 0xE: E_ILL, always (R172). -/
def execReservedE (s : State) : Host.Outcome State Fault Refusal := refuse .eIll s

/-- Reserved `op` 0xF: E_ILL, always (R172). -/
def execReservedF (s : State) : Host.Outcome State Fault Refusal := refuse .eIll s

end Sys2Proof.Machine
end

