-- ==== Sys2Proof/Machine/WordDecoder.lean ====
section
/-! DEFINITION. The Word Decoder: the pure function `decode_words`, normative from the source (spec
rules R120 to R125), and the four frame commands (R129 to R132). -/

namespace Sys2Proof.Machine

/-- The result of `decode_words` (R120): all the words, or one of the two errors. -/
inductive DecodeResult where
  | words (ws : List Word)
  | lengthFailure
  | checksumFailure
  deriving DecidableEq, Repr

/-- The words of a byte list cut into groups of three, `none` if a group fails its check (R122, R123,
R124). A rest of one or two bytes, which the length test has excluded before, is no group. -/
def groupWords : List Byte → Option (List Word)
  | hi :: lo :: c :: rest =>
    if groupPasses hi lo c then (groupWords rest).map (joinBytes hi lo :: ·) else none
  | [] | [_] | [_, _] => some []

/-- `decode_words(bytes, n)`: the length test first, exact equality with `3 * n` (R121, R125). -/
def decodeWords (bytes : List Byte) (n : Nat) : DecodeResult :=
  if bytes.length = 3 * n then
    match groupWords bytes with
    | some ws => .words ws
    | none => .checksumFailure
  else .lengthFailure

/-- WD.START n: open a frame that must hold `n` words (R129). -/
def execWdStart (n : Byte) (s : State) : Host.Outcome State Fault Refusal :=
  if argNat n > s.block.wcap then refuse .eCap s
  else
    respond { s.block with
      isOpen := true, expect := n, gidx := 0#8, phase := .p0, crcErr := false, isOver := false,
      wvalid := false, wcount := 0#8, wdCode := .ok } .ok 0#32 s

/-- The third byte of a group, its checksum byte (R130, phase 2): the word goes to `W[gidx]` whether or
not the checksum matches. -/
def closeGroup (x : Byte) (s : State) : Host.Outcome State Fault Refusal :=
  match writeW s.block.gidx.toNat (joinBytes s.block.b0 s.block.b1) s.block with
  | some b =>
    respond { b with
      crcErr := b.crcErr || !groupPasses b.b0 b.b1 x, gidx := b.gidx + 1#8, phase := .p0 } .ok 0#32 s
  | none => .fault .wordIndexOutsideBuffer

/-- WD.BYTE x: push the next byte of the open frame (R130). -/
def execWdByte (x : Byte) (s : State) : Host.Outcome State Fault Refusal :=
  if s.block.isOpen then
    if frameFull s.block then respond { s.block with isOver := true } .ok 0#32 s
    else
      match s.block.phase with
      | .p0 => respond { s.block with b0 := x, phase := .p1 } .ok 0#32 s
      | .p1 => respond { s.block with b1 := x, phase := .p2 } .ok 0#32 s
      | .p2 => closeGroup x s
  else refuse .eSeq s

/-- WD.END: close the frame and give its verdict (R131). -/
def execWdEnd (s : State) : Host.Outcome State Fault Refusal :=
  if s.block.isOpen then
    match frameVerdict s.block with
    | .eLen => respond { s.block with isOpen := false, wdCode := .eLen } .eLen 0#32 s
    | .eCrc => respond { s.block with isOpen := false, wdCode := .eCrc } .eCrc 0#32 s
    | .ok   =>
      respond { s.block with
        isOpen := false, wvalid := true, wcount := s.block.expect, wdCode := .ok }
        .ok (zextByte s.block.expect) s
  else refuse .eSeq s

/-- WD.RDW i: read word `i` of the last successful frame (R132). -/
def execWdRdw (i : Byte) (s : State) : Host.Outcome State Fault Refusal :=
  if s.block.wvalid then
    if argNat i ≥ s.block.wcount.toNat then refuse .eIdx s
    else
      match readW (argNat i) s.block with
      | some w => respond s.block .ok (zextWord w) s
      | none => .fault .wordIndexOutsideBuffer
  else refuse .eNores s

end Sys2Proof.Machine
end

