-- ==== Sys2Proof/Machine/Dispatch.lean ====
section
/-! DEFINITION. One arm per command: the transaction of R9, `exec : State -> Command -> State x
Response`, the response standing in the next state's response channel. -/

namespace Sys2Proof.Machine

def exec (i : Instr) (s : State) : Host.Outcome State Fault Refusal :=
  match i with
  | .nop => Sys2Proof.Machine.execNop s
  | .crcInit => Sys2Proof.Machine.execCrcInit s
  | .crcUpd b => Sys2Proof.Machine.execCrcUpd b s
  | .crcGet => Sys2Proof.Machine.execCrcGet s
  | .crcChk c => Sys2Proof.Machine.execCrcChk c s
  | .wdStart n => Sys2Proof.Machine.execWdStart n s
  | .wdByte x => Sys2Proof.Machine.execWdByte x s
  | .wdEnd => Sys2Proof.Machine.execWdEnd s
  | .wdRdw k => Sys2Proof.Machine.execWdRdw k s
  | .mdConv => Sys2Proof.Machine.execMdConv s
  | .mdRdf k => Sys2Proof.Machine.execMdRdf k s
  | .mdInv => Sys2Proof.Machine.execMdInv s
  | .stat => Sys2Proof.Machine.execStat s
  | .reservedD => Sys2Proof.Machine.execReservedD s
  | .reservedE => Sys2Proof.Machine.execReservedE s
  | .reservedF => Sys2Proof.Machine.execReservedF s

end Sys2Proof.Machine
end

