-- ==== Sys2Proof/Machine/Ports.lean ====
section
/-! DEFINITION. The block at its ports: one rising edge of `clk` in the reference timing (spec rules
R209, R210, R213, R223), and the response pins. -/

namespace Sys2Proof.Machine

/-- One rising edge with the pins `p`. With `rst` = 1: the reset event, whatever `cmd_valid` shows
(R210). With a command accepted: the decoded command runs (R209), but before the first reset no
command has a meaning (R213). Otherwise nothing happens (R223). -/
def clockEdge (p : Pins) (s : State) : Host.Outcome State Fault Refusal :=
  if p.rst then .next (resetEvent s)
  else if p.accepted then
    if s.resetSeen then exec (decode p.beat) s else .refused .beforeFirstReset
  else .next (idleEdge s)

/-- `rsp_valid` in the cycle after the last edge (R209, R223). -/
def State.rspValid (s : State) : Bool := s.rsp.isSome

/-- `rsp_code`: the code of the response, 0 when there is none (R223). -/
def State.rspCode (s : State) : BitVec 3 :=
  match s.rsp with
  | some r => r.code.toBits
  | none => 0#3

/-- `rsp_data`: the data of the response, 0 when there is none (R223). -/
def State.rspData (s : State) : BitVec 32 :=
  match s.rsp with
  | some r => r.data
  | none => 0#32

/-- The beat of an opcode-table word: the 12 low bits of the `nbits` bits given. -/
def tableBeat (nbits w : Nat) : Beat := BitVec.ofNat 12 (w % 2 ^ nbits)

/-- The state with a beat put before the edges to come, on a block that has been reset. -/
def presentBeat (beat : Beat) (s : State) : State :=
  { s with inputs := Pins.ofBeat beat :: s.inputs, resetSeen := true }

end Sys2Proof.Machine
end

