-- ==== Sys2Proof/Machine/Step.lean ====
section
/-! DEFINITION. One step of the machine is one rising edge of `clk` (spec rule R209) with the next
pins the host presents (log entries 6, 7). -/

namespace Sys2Proof.Machine

/-- One step: the pins of the next edge are taken and the edge happens. -/
def step (s : State) : Host.Outcome State Fault Refusal := clockEdge (nextPins s) (takePins s)

/-- `s` with the opcode-table word `w` presented at the very next edge (log entry 8). -/
def State.withFetchWord (s : State) (nbits w : Nat) : State := presentBeat (tableBeat nbits w) s

end Sys2Proof.Machine
end

