-- ==== Sys2Proof/Machine/Wire.lean ====
section
/-! DEFINITION. The wire data of the source: groups, frames, float cells, the named payloads, and what
the consumer reads out of W and F (spec rules R25, R74 to R80, R83, R126, R155). No command of the
block builds any of it; the definitions are the host's side of the byte stream. -/

namespace Sys2Proof.Machine

/-- A correct group, and the pseudo-operand `G(hi, lo)` (R74, R88). -/
def groupBytes (hi lo : Byte) : List Byte := [hi, lo, crc8 [hi, lo]]

/-- The group of a word (R74). -/
def wordGroup (w : Word) : List Byte := groupBytes (wordHi w) (wordLo w)

/-- `encode_words(words)`: a correct group per word (R126). -/
def encodeWords (ws : List Word) : List Byte := ws.flatMap wordGroup

/-- A float cell, six bytes, and the pseudo-operand `P(p)` (R76, R88). -/
def floatCell (p : Pattern) : List Byte := wordGroup (patternHi p) ++ wordGroup (patternLo p)

/-- A measurement frame: ten float cells in field order (R78). -/
def measurementFrame (ps : Vector Pattern 10) : List Byte := ps.toList.flatMap floatCell

/-- The serial-number string: the data bytes in wire order (R79). -/
def serialString (ws : List Word) : List Byte := ws.flatMap fun w => [wordHi w, wordLo w]

/-- The data-ready test of a consumer: the low byte of the word is nonzero (R80, conflict C4). -/
def dataReady (w : Word) : Bool := wordLo w != 0#8

/-- Start measurement, the one outgoing payload with a checksum (R83). -/
def startMeasurementPayload : List Byte := [0x00#8, 0x10#8] ++ groupBytes 0x03#8 0x00#8

/-- Serial number query (R83). -/
def serialNumberQueryPayload : List Byte := [0xD0#8, 0x33#8]

/-- Set data-ready flag (R83). -/
def setDataReadyPayload : List Byte := [0x02#8, 0x02#8]

/-- Get measurement data (R83). -/
def getMeasurementPayload : List Byte := [0x03#8, 0x00#8]

/-- Stop measurement (R83). -/
def stopMeasurementPayload : List Byte := [0x01#8, 0x04#8]

/-- The Mass Concentration Record (R25, R155). -/
structure MassConcentration where
  mc1p0  : Pattern
  mc2p5  : Pattern
  mc4p0  : Pattern
  mc10p0 : Pattern
  deriving DecidableEq, Repr

/-- The Number Concentration Record (R25, R155). -/
structure NumberConcentration where
  nc0p5  : Pattern
  nc1p0  : Pattern
  nc2p5  : Pattern
  nc4p0  : Pattern
  nc10p0 : Pattern
  deriving DecidableEq, Repr

/-- The mass concentration record of ten patterns: the first four (R155). -/
def massConcentration (p : Vector Pattern 10) : MassConcentration := ⟨p[0], p[1], p[2], p[3]⟩

/-- The number concentration record of ten patterns: the next five (R155). -/
def numberConcentration (p : Vector Pattern 10) : NumberConcentration :=
  ⟨p[4], p[5], p[6], p[7], p[8]⟩

/-- The typical particle size: the tenth pattern (R155). -/
def typicalParticleSize (p : Vector Pattern 10) : Pattern := p[9]

/-- The sign bit of a pattern (R77; PRESUMED, log entry 17). The block never looks at it (R152). -/
def floatSign (p : Pattern) : Bool := p[31]

/-- The biased exponent of a pattern (R77). -/
def floatExponent (p : Pattern) : BitVec 8 := p.extractLsb' 23 8

/-- The fraction of a pattern (R77). -/
def floatFraction (p : Pattern) : BitVec 23 := p.extractLsb' 0 23

/-- An infinity: exponent 255, fraction 0 (R77). -/
def floatIsInfinity (p : Pattern) : Bool := floatExponent p == 255#8 && floatFraction p == 0#23

/-- A NaN: exponent 255, fraction not 0 (R77). -/
def floatIsNaN (p : Pattern) : Bool := floatExponent p == 255#8 && floatFraction p != 0#23

/-- A subnormal: exponent 0, fraction not 0 (R77). -/
def floatIsSubnormal (p : Pattern) : Bool := floatExponent p == 0#8 && floatFraction p != 0#23

end Sys2Proof.Machine
end

