-- ==== Sys2Proof/Machine/Programs.lean ====
section
/-! DEFINITION. How the spec writes commands: pseudo-instructions and assembly text (spec rules R85 to
R87). The text chooses, where R85 allows decimal or hexadecimal, what the spec's examples write: bytes
in hexadecimal, counts and indices in decimal (log entry 16). -/

namespace Sys2Proof.Machine

/-- Pseudo-instruction CHECKSUM (R86). -/
def checksumProgram (bytes : List Byte) : List Instr := .crcInit :: bytes.map .crcUpd ++ [.crcGet]

/-- Pseudo-instruction FRAME (R87). -/
def frameProgram (n : Byte) (bytes : List Byte) : List Instr :=
  .wdStart n :: bytes.map .wdByte ++ [.wdEnd]

/-- The commands that give a reset's effect without the pin, but for `wvalid` (R174). -/
def softResetProgram : List Instr := [.crcInit, .wdStart 0#8, .wdEnd, .mdInv]

/-- A digit, capitals above 9. -/
def hexDigit (n : Nat) : Char := (Nat.digitChar n).toUpper

/-- The `k` low hexadecimal digits of a number, most significant first. -/
def hexDigits : Nat → Nat → List Char
  | 0, _ => []
  | k + 1, n => hexDigits k (n / 16) ++ [hexDigit (n % 16)]

/-- A number in hexadecimal with `0x` and `k` digits (R7, R85). -/
def hexText (k n : Nat) : String := String.ofList ('0' :: 'x' :: hexDigits k n)

/-- The mnemonic the spec's text uses (R71, R85); a reserved beat has none and is called so. -/
def specMnemonic : Instr → String
  | .nop => "NOP"
  | .crcInit => "CRC.INIT"
  | .crcUpd _ => "CRC.UPD"
  | .crcGet => "CRC.GET"
  | .crcChk _ => "CRC.CHK"
  | .wdStart _ => "WD.START"
  | .wdByte _ => "WD.BYTE"
  | .wdEnd => "WD.END"
  | .wdRdw _ => "WD.RDW"
  | .mdConv => "MD.CONV"
  | .mdRdf _ => "MD.RDF"
  | .mdInv => "MD.INV"
  | .stat => "STAT"
  | .reservedD | .reservedE | .reservedF => "reserved"

/-- The text of a command: its mnemonic, and its operand when the format is CA (R85). -/
def commandText (i : Instr) : String :=
  match i with
  | .crcUpd b | .crcChk b | .wdByte b => specMnemonic i ++ " " ++ hexText 2 b.toNat
  | .wdStart n | .wdRdw n | .mdRdf n => specMnemonic i ++ " " ++ toString n.toNat
  | .nop | .crcInit | .crcGet | .wdEnd | .mdConv | .mdInv | .stat
  | .reservedD | .reservedE | .reservedF => specMnemonic i

/-- The name of a code (R181). -/
def Code.text : Code → String
  | .ok => "OK"
  | .eCrc => "E_CRC"
  | .eLen => "E_LEN"
  | .eSeq => "E_SEQ"
  | .eNores => "E_NORES"
  | .eIdx => "E_IDX"
  | .eCap => "E_CAP"
  | .eIll => "E_ILL"

/-- The commands whose rule defines data for a response OK (R73). -/
def definesData : Instr → Bool
  | .crcGet | .wdEnd | .wdRdw _ | .mdRdf _ | .stat => true
  | .nop | .crcInit | .crcUpd _ | .crcChk _ | .wdStart _ | .wdByte _ | .mdConv | .mdInv
  | .reservedD | .reservedE | .reservedF => false

/-- One line: the command, `->`, and the response as `code` or `code, data` (R85). -/
def lineText (i : Instr) (r : Response) : String :=
  commandText i ++ " -> " ++ r.code.text ++
    (if definesData i && r.code == .ok then ", " ++ hexText 8 r.data.toNat else "")

end Sys2Proof.Machine
end

