-- ==== Sys2Proof/Safety.lean ====
section
/-! DEFINITION. What the claims are stated in: the invariant of the reachable states (spec rule R40),
runs of command lists (R9) and what a host sees at the ports (R73, R223). -/

namespace Sys2Proof.Machine

/-- The invariant of R40 on a block, clauses (a) to (f). Clause (a) is the type `Phase`, and the first
half of clause (e) is the type `Verdict`. Clauses (g) and (h) speak of the past and are stated over
runs. The first two fields are the bounds of the parameter `WCAP` (R6). -/
structure Block.Inv (b : Block) : Prop where
  /-- `20 <= WCAP` (R6) -/
  wcap_ge : Config.wcapMin ≤ b.wcap
  /-- `WCAP <= 255` (R6) -/
  wcap_le : b.wcap ≤ Config.wcapMax
  /-- (b) `gidx <= expect` -/
  gidx_le : b.gidx.toNat ≤ b.expect.toNat
  /-- (b) `expect <= WCAP` -/
  expect_le : b.expect.toNat ≤ b.wcap
  /-- (c) `wvalid = 1` implies `open = 0`, `wd_code = 0` and `wcount = expect` -/
  valid_closed : b.wvalid = true → b.isOpen = false ∧ b.wdCode = .ok ∧ b.wcount = b.expect
  /-- (d) `wvalid = 0` implies `wcount = 0` -/
  invalid_empty : b.wvalid = false → b.wcount = 0#8
  /-- (e) `wd_code != 0` implies `open = 0` and `wvalid = 0` -/
  failed_closed : b.wdCode ≠ .ok → b.isOpen = false ∧ b.wvalid = false
  /-- (f) `over = 1` implies `gidx = expect` -/
  over_full : b.isOver = true → b.gidx = b.expect

/-- The invariant of the machine: the word buffer has a legal number of entries always; the block meets
R40 once it has been reset (before that its state is unspecified, R213); an error response carries no
data (R73). -/
structure State.Inv (s : State) : Prop where
  wcap_ge : Config.wcapMin ≤ s.block.wcap
  wcap_le : s.block.wcap ≤ Config.wcapMax
  block : s.resetSeen = true → s.block.Inv
  rsp_data : ∀ r, s.rsp = some r → r.code ≠ .ok → r.data = 0#32

/-- A list of commands executed in order, with each command's response (R9): the last state and the
list of commands with their responses. -/
def execTrace : List Instr → State → Host.Outcome (State × List (Instr × Response)) Fault Refusal
  | [], s => .next (s, [])
  | i :: is, s =>
    match exec i s with
    | .next t =>
      match execTrace is t with
      | .next (u, tr) => .next (u, (t.rsp.map (Prod.mk i)).toList ++ tr)
      | .fault f => .fault f
      | .refused r => .refused r
    | .fault f => .fault f
    | .refused r => .refused r

/-- What the host sees of `k` edges: the response channel in the cycle after each. It ends early only
if the machine stops. -/
def portTrace : Nat → State → List (Option Response)
  | 0, _ => []
  | k + 1, s =>
    match step s with
    | .next t => t.rsp :: portTrace k t
    | .fault _ => []
    | .refused _ => []

/-- The commands accepted at a list of edges, in order (R209). -/
def acceptedCommands (es : List Pins) : List Instr :=
  es.filterMap fun p => if p.accepted then some (decode p.beat) else none

/-- The byte a command pushes into a frame. -/
def frameByte : Instr → Option Byte
  | .wdByte x => some x
  | .nop | .crcInit | .crcUpd _ | .crcGet | .crcChk _ | .wdStart _ | .wdEnd | .wdRdw _ | .mdConv
  | .mdRdf _ | .mdInv | .stat | .reservedD | .reservedE | .reservedF => none

/-- The byte a command absorbs into the host-driven checksum. -/
def crcByte : Instr → Option Byte
  | .crcUpd x => some x
  | .nop | .crcInit | .crcGet | .crcChk _ | .wdStart _ | .wdByte _ | .wdEnd | .wdRdw _ | .mdConv
  | .mdRdf _ | .mdInv | .stat | .reservedD | .reservedE | .reservedF => none

/-- The bytes a command list pushes with WD.BYTE, in order. -/
def frameBytes (cs : List Instr) : List Byte := cs.filterMap frameByte

/-- The bytes a command list absorbs with CRC.UPD, in order. -/
def crcBytes (cs : List Instr) : List Byte := cs.filterMap crcByte

/-- The commands R133 allows between the WD.BYTE commands of a frame: no other WD command and no
MD.CONV. -/
def sparesFrame : Instr → Bool
  | .nop | .crcInit | .crcUpd _ | .crcGet | .crcChk _ | .mdRdf _ | .mdInv | .stat
  | .reservedD | .reservedE | .reservedF => true
  | .wdStart _ | .wdByte _ | .wdEnd | .wdRdw _ | .mdConv => false

/-- A command that may stand inside a frame: WD.BYTE or one of those R133 allows. -/
def insideFrame (i : Instr) : Bool := (frameByte i).isSome || sparesFrame i

/-- The four commands of the Checksum Engine. -/
def isCe : Instr → Bool
  | .crcInit | .crcUpd _ | .crcGet | .crcChk _ => true
  | .nop | .wdStart _ | .wdByte _ | .wdEnd | .wdRdw _ | .mdConv | .mdRdf _ | .mdInv | .stat
  | .reservedD | .reservedE | .reservedF => false

/-- The four commands of the Word Decoder. -/
def isWd : Instr → Bool
  | .wdStart _ | .wdByte _ | .wdEnd | .wdRdw _ => true
  | .nop | .crcInit | .crcUpd _ | .crcGet | .crcChk _ | .mdConv | .mdRdf _ | .mdInv | .stat
  | .reservedD | .reservedE | .reservedF => false

/-- The commands that only read, and NOP (R61). -/
def isRead : Instr → Bool
  | .crcGet | .crcChk _ | .wdRdw _ | .mdRdf _ | .stat | .nop => true
  | .crcInit | .crcUpd _ | .wdStart _ | .wdByte _ | .wdEnd | .mdConv | .mdInv
  | .reservedD | .reservedE | .reservedF => false

/-- `s` with the response `code, data` and the block `b`: what a command that completes leaves. -/
def State.after (s : State) (b : Block) (code : Code) (data : BitVec 32) : State :=
  { s with block := b, rsp := some ⟨code, data⟩ }

/-- "No partial result" (R133 d): after any commands among which no WD.END answered OK, every WD.RDW
and MD.CONV is refused with E_NORES. -/
def NoPartialResult (u : State) : Prop :=
  ∀ ds v tr, execTrace ds u = .next (v, tr) →
    (∀ p ∈ tr, p.1 = .wdEnd → p.2.code ≠ .ok) →
      (∀ k, exec (.wdRdw k) v = .next (v.after v.block .eNores 0#32)) ∧
        exec .mdConv v = .next (v.after v.block .eNores 0#32)

end Sys2Proof.Machine
end

