-- ==== Sys2Proof/Certificates/Slice0/Obligations.lean ====
section
/-! DEFINITION. The statements for the provers. Each docstring names the rule of the spec it
formalises. No statement rests on a value the model chose (log entries 2 to 5): where the state after
reset matters, the statement is about every block after the reset event, whatever `b0`, `b1`, W and F
hold and whatever `WCAP` is. -/

open Sys2Proof Sys2Proof.Machine

/-! ### The commands, one by one: encoding, result, response, completion -/

/-- R170: NOP responds OK and changes nothing, in every state; the all-zero beat is a NOP. -/
def Obligations.NopRespondsOkAndChangesNothing : Prop :=
  (∀ arg, decode (joinBeat 0x0#4 arg) = .nop) ∧ decode 0x000#12 = .nop ∧
  ∀ s, exec .nop s = .next (s.after s.block .ok 0#32)

/-- R106: CRC.INIT puts 0xFF into `crc` in every state and touches nothing else. -/
def Obligations.CrcInitStartsNewChecksum : Prop :=
  (∀ arg, decode (joinBeat 0x1#4 arg) = .crcInit) ∧
  ∀ s, exec .crcInit s = .next (s.after { s.block with crc := 0xFF#8 } .ok 0#32)

/-- R107: CRC.UPD replaces `crc` by `crc8_update(crc, b)` in every state and touches nothing else. Of
the corner cases: `b = 0x00` applies the eight steps; from 0xFF, 0xFF gives 0x00 and 0x03 gives 0xFF;
`crc` is 0xFF after reset. (The rule's word that 0x00 always changes `crc` is not claimed: log entry
15.) -/
def Obligations.CrcUpdAbsorbsOneByte : Prop :=
  (∀ b, decode (joinBeat 0x2#4 b) = .crcUpd b) ∧
  (∀ b s, exec (.crcUpd b) s =
    .next (s.after { s.block with crc := crc8Update s.block.crc b } .ok 0#32)) ∧
  (∀ c, crc8Update c 0x00#8 =
    crc8Step (crc8Step (crc8Step (crc8Step (crc8Step (crc8Step (crc8Step (crc8Step c)))))))) ∧
  crc8Update 0xFF#8 0xFF#8 = 0x00#8 ∧ crc8Update 0xFF#8 0x03#8 = 0xFF#8 ∧
  crc8Update 0xFF#8 0xBE#8 = 0x0C#8 ∧ ∀ b, (resetBlock b).crc = 0xFF#8

/-- R108: CRC.GET responds the running value zero-extended and writes nothing. -/
def Obligations.CrcGetRespondsRunningValue : Prop :=
  (∀ arg, decode (joinBeat 0x3#4 arg) = .crcGet) ∧
  (∀ s, exec .crcGet s = .next (s.after s.block .ok (s.block.crc.zeroExtend 32))) ∧
  ∀ s, ∃ t, exec .crcGet (resetEvent s) = .next t ∧ t.rsp = some ⟨.ok, 0x000000FF#32⟩

/-- R109: CRC.CHK answers OK when `crc` equals the operand and E_CRC (code 1) otherwise, and writes
nothing in either case. -/
def Obligations.CrcChkComparesWithoutAbsorbing : Prop :=
  (∀ c, decode (joinBeat 0x4#4 c) = .crcChk c) ∧ Code.eCrc.toBits = 1#3 ∧
  (∀ c s, s.block.crc = c → exec (.crcChk c) s = .next (s.after s.block .ok 0#32)) ∧
  ∀ c s, s.block.crc ≠ c → exec (.crcChk c) s = .next (s.after s.block .eCrc 0#32)

/-- R129: WD.START refuses a count above `WCAP` with E_CAP and changes nothing; otherwise it opens the
frame, whether or not one was open, and clears the previous result. -/
def Obligations.WdStartOpensFrameOrRefuses : Prop :=
  (∀ n, decode (joinBeat 0x5#4 n) = .wdStart n) ∧ Code.eCap.toBits = 6#3 ∧
  (∀ n s, s.block.wcap < n.toNat →
    exec (.wdStart n) s = .next (s.after s.block .eCap 0#32)) ∧
  (∀ n s, n.toNat ≤ s.block.wcap →
    exec (.wdStart n) s = .next (s.after { s.block with
      isOpen := true, expect := n, gidx := 0#8, phase := .p0, crcErr := false, isOver := false,
      wvalid := false, wcount := 0#8, wdCode := .ok } .ok 0#32)) ∧
  ∀ s t, s.block.fvalid = false → exec (.wdStart 20#8) s = .next t →
    t.rsp = some ⟨.ok, 0#32⟩ → statusWord t.block = 0x00140001#32

/-- R130: WD.BYTE is refused with E_SEQ outside a frame; inside, a byte after `3 * expect` sets `over`,
the two data bytes go to `b0` and `b1`, and the third byte writes the word to `W[gidx]` whether or
not it matches, marks a mismatch and closes the group. The index is inside W in every state R40
allows. -/
def Obligations.WdBytePushesNextByte : Prop :=
  (∀ x, decode (joinBeat 0x6#4 x) = .wdByte x) ∧ Code.eSeq.toBits = 3#3 ∧
  (∀ x s, s.block.isOpen = false →
    exec (.wdByte x) s = .next (s.after s.block .eSeq 0#32)) ∧
  (∀ x s, s.block.isOpen = true → s.block.gidx = s.block.expect →
    exec (.wdByte x) s = .next (s.after { s.block with isOver := true } .ok 0#32)) ∧
  (∀ x s, s.block.isOpen = true → s.block.gidx ≠ s.block.expect → s.block.phase = .p0 →
    exec (.wdByte x) s = .next (s.after { s.block with b0 := x, phase := .p1 } .ok 0#32)) ∧
  (∀ x s, s.block.isOpen = true → s.block.gidx ≠ s.block.expect → s.block.phase = .p1 →
    exec (.wdByte x) s = .next (s.after { s.block with b1 := x, phase := .p2 } .ok 0#32)) ∧
  (∀ x s, s.block.isOpen = true → s.block.gidx ≠ s.block.expect → s.block.phase = .p2 →
    s.block.gidx.toNat < s.block.wcap →
    exec (.wdByte x) s = .next (s.after { s.block with
      W := s.block.W.set s.block.gidx.toNat (s.block.b0 ++ s.block.b1),
      crcErr := s.block.crcErr || x != crc8 [s.block.b0, s.block.b1],
      gidx := s.block.gidx + 1#8, phase := .p0 } .ok 0#32)) ∧
  ∀ b : Block, b.Inv → b.gidx ≠ b.expect → b.gidx.toNat < b.wcap

/-- R131: WD.END is refused with E_SEQ outside a frame; inside, it closes the frame with E_LEN when the
length is wrong, else with E_CRC when a group failed, else with OK and the word count. -/
def Obligations.WdEndGivesVerdict : Prop :=
  (∀ arg, decode (joinBeat 0x7#4 arg) = .wdEnd) ∧ Code.eLen.toBits = 2#3 ∧
  (∀ s, s.block.isOpen = false → exec .wdEnd s = .next (s.after s.block .eSeq 0#32)) ∧
  (∀ s, s.block.isOpen = true →
    (s.block.isOver = true ∨ s.block.phase ≠ .p0 ∨ s.block.gidx ≠ s.block.expect) →
    exec .wdEnd s =
      .next (s.after { s.block with isOpen := false, wdCode := .eLen } .eLen 0#32)) ∧
  (∀ s, s.block.isOpen = true → s.block.isOver = false → s.block.phase = .p0 →
    s.block.gidx = s.block.expect → s.block.crcErr = true →
    exec .wdEnd s =
      .next (s.after { s.block with isOpen := false, wdCode := .eCrc } .eCrc 0#32)) ∧
  ∀ s, s.block.isOpen = true → s.block.isOver = false → s.block.phase = .p0 →
    s.block.gidx = s.block.expect → s.block.crcErr = false →
    exec .wdEnd s = .next (s.after { s.block with
      isOpen := false, wvalid := true, wcount := s.block.expect, wdCode := .ok }
      .ok (s.block.expect.zeroExtend 32))

/-- R132: WD.RDW is refused with E_NORES when W holds no valid result, then with E_IDX when the index is
not below `wcount`; otherwise it responds `W[i]`. It writes nothing. There is no valid result after
reset, while a frame is open, or after a failed WD.END. -/
def Obligations.WdRdwReadsWord : Prop :=
  (∀ i, decode (joinBeat 0x8#4 i) = .wdRdw i) ∧ Code.eNores.toBits = 4#3 ∧ Code.eIdx.toBits = 5#3 ∧
  (∀ i s, s.block.wvalid = false →
    exec (.wdRdw i) s = .next (s.after s.block .eNores 0#32)) ∧
  (∀ i s, s.block.wvalid = true → s.block.wcount.toNat ≤ i.toNat →
    exec (.wdRdw i) s = .next (s.after s.block .eIdx 0#32)) ∧
  (∀ i s w, s.block.wvalid = true → i.toNat < s.block.wcount.toNat →
    s.block.W[i.toNat]? = some w →
    exec (.wdRdw i) s = .next (s.after s.block .ok (w.zeroExtend 32))) ∧
  (∀ (i : Byte) (b : Block), b.Inv → b.wvalid = true → i.toNat < b.wcount.toNat →
    ∃ w, b.W[i.toNat]? = some w) ∧
  (∀ b : Block, b.Inv → b.isOpen = true ∨ b.wdCode ≠ .ok → b.wvalid = false) ∧
  ∀ b : Block, (resetBlock b).wvalid = false

/-- R157: MD.CONV is refused with E_NORES unless W holds a valid result of exactly twenty words;
otherwise it writes all ten registers, `F[i] <- W[2i] ∥ W[2i+1]`, and sets `fvalid`, and touches
nothing else. -/
def Obligations.MdConvConvertsTwentyWords : Prop :=
  (∀ arg, decode (joinBeat 0x9#4 arg) = .mdConv) ∧
  (∀ s, s.block.wvalid = false ∨ s.block.wcount ≠ 20#8 →
    exec .mdConv s = .next (s.after s.block .eNores 0#32)) ∧
  (∀ s, s.block.wvalid = true → s.block.wcount = 20#8 → 20 ≤ s.block.wcap →
    ∃ F' : Vector Pattern 10,
      (∀ i, (h : i < 10) → ∃ a b, s.block.W[2 * i]? = some a ∧ s.block.W[2 * i + 1]? = some b ∧
        F'[i] = a ++ b) ∧
      exec .mdConv s = .next (s.after { s.block with F := F', fvalid := true } .ok 0#32)) ∧
  ∀ b : Block, b.Inv → 20 ≤ b.wcap

/-- R158: MD.RDF is refused with E_NORES when no valid measurement is held, then with E_IDX when the
index is 10 or more; otherwise it responds `F[i]`, all 32 bits as they are. It writes nothing. -/
def Obligations.MdRdfReadsFloatRegister : Prop :=
  (∀ i, decode (joinBeat 0xA#4 i) = .mdRdf i) ∧
  (∀ i s, s.block.fvalid = false →
    exec (.mdRdf i) s = .next (s.after s.block .eNores 0#32)) ∧
  (∀ i s, s.block.fvalid = true → 10 ≤ i.toNat →
    exec (.mdRdf i) s = .next (s.after s.block .eIdx 0#32)) ∧
  ∀ (i : Byte) s, s.block.fvalid = true → (h : i.toNat < 10) →
    exec (.mdRdf i) s = .next (s.after s.block .ok s.block.F[i.toNat])

/-- R159: MD.INV clears `fvalid` in every state and touches nothing else, F included. -/
def Obligations.MdInvClearsValidFlag : Prop :=
  (∀ arg, decode (joinBeat 0xB#4 arg) = .mdInv) ∧
  ∀ s, exec .mdInv s = .next (s.after { s.block with fvalid := false } .ok 0#32)

/-- R171 and R38: STAT responds the status word in every state and writes nothing; the fields stand at
their bits and the reserved bits read 0. -/
def Obligations.StatRespondsStatusWord : Prop :=
  (∀ arg, decode (joinBeat 0xC#4 arg) = .stat) ∧
  (∀ s, exec .stat s = .next (s.after s.block .ok (statusWord s.block))) ∧
  (∀ b : Block,
    (statusWord b)[0] = b.isOpen ∧ (statusWord b)[1] = b.wvalid ∧ (statusWord b)[2] = b.fvalid ∧
    (statusWord b).extractLsb' 3 3 = b.wdCode.toBits ∧ (statusWord b).extractLsb' 6 2 = 0#2 ∧
    (statusWord b).extractLsb' 8 8 = b.wcount ∧ (statusWord b).extractLsb' 16 8 = b.expect ∧
    (statusWord b).extractLsb' 24 8 = 0#8) ∧
  ∀ b, statusWord (resetBlock b) = 0x00000000#32

/-- R172 and R188: every beat with `op` 0xD, 0xE or 0xF is answered E_ILL (code 7) in every state and
changes nothing, and no other command answers E_ILL. -/
def Obligations.ReservedOpsAnswerIllegal : Prop :=
  Code.eIll.toBits = 7#3 ∧
  (∀ arg op s, op = 0xD#4 ∨ op = 0xE#4 ∨ op = 0xF#4 →
    exec (decode (joinBeat op arg)) s = .next (s.after s.block .eIll 0#32)) ∧
  (∀ s, exec .reservedD s = .next (s.after s.block .eIll 0#32) ∧
    exec .reservedE s = .next (s.after s.block .eIll 0#32) ∧
    exec .reservedF s = .next (s.after s.block .eIll 0#32)) ∧
  ∀ beat s t r, exec (decode beat) s = .next t → t.rsp = some r → r.code = .eIll →
    beatOp beat = 0xD#4 ∨ beatOp beat = 0xE#4 ∨ beatOp beat = 0xF#4

/-! ### Encoding -/

/-- R70, R71: beats of the spec's programs P1 to P7, written out, decode to the commands they stand
for. The last two clauses, on table words, are the model's choice and not the spec's (DESIGN CHOICE, log
entry 12): the beat stands in the low 12 bits of a 16-bit table word, and a larger word is refused. -/
def Obligations.WrittenOutBeatsDecode : Prop :=
  decode 0b000100000000#12 = .crcInit ∧ decode 0b001000000011#12 = .crcUpd 0x03#8 ∧
  decode 0b001100000000#12 = .crcGet ∧ decode 0b010010101100#12 = .crcChk 0xAC#8 ∧
  decode 0b010100010100#12 = .wdStart 20#8 ∧ decode 0b011010111110#12 = .wdByte 0xBE#8 ∧
  decode 0b011100000000#12 = .wdEnd ∧ decode 0b100000010011#12 = .wdRdw 19#8 ∧
  decode 0b100100000000#12 = .mdConv ∧ decode 0b101000001001#12 = .mdRdf 9#8 ∧
  decode 0b101100000000#12 = .mdInv ∧ decode 0b110000000000#12 = .stat ∧
  decode 0b111001011010#12 = .reservedE ∧ decodeTableWord 16 0x514 = some (.wdStart 20#8) ∧
  decodeTableWord 16 0x1000 = none

/-- R71, R72: every command, with its operand at every value, is what its own beat decodes to; the beat
carries the row's bits and the operand unchanged. -/
def Obligations.DecodeOfEncodeIsIdentity : Prop :=
  ∀ i : Instr, decode (encode i) = i ∧ beatOp (encode i) = i.op.toBits ∧
    beatArg (encode i) = i.arg ∧ i.wellFormed = true

/-- R82: every beat spells exactly one row of the table, and the decoder gives that row's command. -/
def Obligations.EveryBeatSpellsExactlyOneRow : Prop :=
  ∀ beat : Beat, ∃ row ∈ opcodeTable, row.spelledBy beat = true ∧ (decode beat).op = row.op ∧
    ∀ other ∈ opcodeTable, other.spelledBy beat = true → other = row

/-- R70, R84: two beats decode alike exactly when they have the same `op` and, if its format is CA, the
same `arg`: on C0 rows `arg` is ignored, on CA rows no bit of it is dropped. -/
def Obligations.ArgIsIgnoredExactlyOnC0Rows : Prop :=
  ∀ b b' : Beat, decode b = decode b' ↔
    beatOp b = beatOp b' ∧ ((decode b).op.format = .ca → beatArg b = beatArg b')

/-! ### Steps, edges and reset -/

/-- R209: at an edge with a command accepted after reset, the step is the decoded command's `exec`, with
the beat taken from the list of edges to come. The second clause is the model's choice and not the spec's
(DESIGN CHOICE, log entries 8 and 12): `withFetchWord` presents the low 12 bits of a table word at the
next edge and marks the block as reset, and the step is then `exec` of the decoded word. -/
def Obligations.StepRunsDecodedCommand : Prop :=
  (∀ s p es, s.inputs = p :: es → p.rst = false → p.cmdValid = true → s.resetSeen = true →
    step s = exec (decode (p.cmdOp ++ p.cmdArg)) { s with inputs := es }) ∧
  ∀ (s : State) w, w < 4096 → step (s.withFetchWord 16 w) =
    exec (decode (BitVec.ofNat 12 w)) { s with resetSeen := true }

/-- R210: at an edge with `rst` = 1 the block is reset whatever `cmd_valid` shows, no command is
accepted, and `rsp_valid` is 0 in the following cycle. -/
def Obligations.ResetEdgeResetsWhateverIsPresented : Prop :=
  ∀ s p es, s.inputs = p :: es → p.rst = true →
    p.cmdReady = false ∧ p.accepted = false ∧
    ∃ t, step s = .next t ∧ t.block = resetBlock s.block ∧ t.rspValid = false ∧
      t.inputs = es ∧ t.resetSeen = true

/-- R223: an edge with no accepted command changes nothing in the block, and `rsp_valid`, `rsp_code` and
`rsp_data` are 0 in the following cycle; `cmd_ready` is 1 whenever `rst` is 0; the response of an
accepted command is on the channel in the following cycle. -/
def Obligations.ReferenceTimingOfTheEdge : Prop :=
  (∀ p : Pins, p.cmdReady = !p.rst) ∧
  (∀ s p es, s.inputs = p :: es → p.rst = false → p.cmdValid = false →
    ∃ t, step s = .next t ∧ t.block = s.block ∧ t.inputs = es ∧ t.resetSeen = s.resetSeen ∧
      t.rspValid = false ∧ t.rspCode = 0#3 ∧ t.rspData = 0#32) ∧
  ∀ s p es t, s.inputs = p :: es → p.rst = false → p.cmdValid = true → step s = .next t →
    ∃ r, t.rsp = some r ∧ t.rspValid = true ∧ t.rspCode = r.code.toBits ∧ t.rspData = r.data

/-- R213: before the first reset a command is refused, whatever the block holds, and an edge with `rst`
makes the block ready. -/
def Obligations.NoCommandBeforeTheFirstReset : Prop :=
  ∀ b p es, p.rst = false → p.cmdValid = true →
    step { State.powerUp b with inputs := p :: es } = .refused .beforeFirstReset ∧
    ∃ t, step { State.powerUp b with inputs := Pins.reset :: p :: es } = .next t ∧
      t.resetSeen = true ∧ t.block = resetBlock b

/-- R41: the eleven reset values, at `State.reset` for every `WCAP` and after the reset event on any
block, which does not write `b0`, `b1`, W and F. STATUS reads 0 (R38). Nothing is said of the values
`State.reset` names for `b0`, `b1`, W and F. -/
def Obligations.ResetLeavesTheElevenValues : Prop :=
  (∀ wcap b, b = (State.resetFor wcap).block ∨ (∃ b', b = resetBlock b') →
    b.crc = 0xFF#8 ∧ b.phase = .p0 ∧ b.gidx = 0#8 ∧ b.isOpen = false ∧ b.crcErr = false ∧
    b.isOver = false ∧ b.expect = 0#8 ∧ b.wcount = 0#8 ∧ b.wvalid = false ∧ b.wdCode = .ok ∧
    b.fvalid = false ∧ statusWord b = 0#32) ∧
  (∀ b, (resetBlock b).b0 = b.b0 ∧ (resetBlock b).b1 = b.b1 ∧ (resetBlock b).W = b.W ∧
    (resetBlock b).F = b.F) ∧
  ∀ wcap, (State.resetFor wcap).block.wcap = wcap ∧ (State.resetFor wcap).rspValid = false

/-- R211: the responses after a reset are the same whatever came before it. Two machines of the same
`WCAP`, reset or not, in any states, that meet an edge with `rst` and then the same pins, show the same
response channel after every edge; and they never stop. -/
def Obligations.ResponsesAfterResetDoNotDependOnThePast : Prop :=
  ∀ (s s' : State) (es : List Pins) (k : Nat),
    s.block.wcap = s'.block.wcap →
    20 ≤ s.block.wcap → s.block.wcap ≤ 255 →
    s.inputs = Pins.reset :: es → s'.inputs = Pins.reset :: es →
    portTrace k s = portTrace k s' ∧ (portTrace k s).length = k

/-! ### Invariants and totality -/

/-- The invariant of R40 holds after reset, for every legal `WCAP`, and of `State.reset`. -/
def Obligations.InvariantHoldsAtReset : Prop :=
  State.reset.Inv ∧
  ∀ s : State, 20 ≤ s.block.wcap → s.block.wcap ≤ 255 →
    (resetEvent s).Inv ∧ (resetEvent s).block.Inv

/-- R40 (a) to (f), with the bounds of `WCAP` and the data of an error response: every step keeps the
invariant, from every state that meets it, whatever is presented. -/
def Obligations.EveryStepKeepsTheInvariant : Prop :=
  ∀ s t : State, s.Inv → step s = .next t → t.Inv ∧ t.block.wcap = s.block.wcap

/-- R9, R180: once reset, the machine never stops: in every state that meets the invariant, every beat
that can be presented, and no beat at all, has a next state; a command's next state carries exactly
one response. -/
def Obligations.MachineNeverStopsAfterReset : Prop :=
  (∀ s : State, s.Inv → s.resetSeen = true → ∃ t, step s = .next t) ∧
  ∀ (i : Instr) (s : State), s.block.Inv → ∃ t r, exec i s = .next t ∧ t.rsp = some r

/-- R40 (g): in a run from reset, a valid result was written by one frame of the run, which held exactly
`3 * wcount` bytes and whose every group matched: W holds what `decode_words` yields for that frame. -/
def Obligations.ValidWordsComeFromOneGoodFrame : Prop :=
  ∀ (s t : State) (cs : List Instr) (tr : List (Instr × Response)),
    execTrace cs (resetEvent s) = .next (t, tr) → t.block.wvalid = true →
    ∃ pre n mid post, cs = pre ++ .wdStart n :: mid ++ .wdEnd :: post ∧
      n.toNat ≤ s.block.wcap ∧ t.block.wcount = n ∧ .wdEnd ∉ mid ∧
      (∀ m, .wdStart m ∈ mid ++ post → s.block.wcap < m.toNat) ∧
      decodeWords (frameBytes mid) n.toNat = .words (t.block.W.take n.toNat)

/-- R40 (h): in a run from reset, a valid measurement was written by one MD.CONV of the run, from twenty
valid words that W held then. -/
def Obligations.ValidMeasurementComesFromOneConversion : Prop :=
  ∀ (s t : State) (cs : List Instr) (tr : List (Instr × Response)),
    execTrace cs (resetEvent s) = .next (t, tr) → t.block.fvalid = true →
    ∃ pre post u tr', cs = pre ++ .mdConv :: post ∧ .mdInv ∉ post ∧
      execTrace pre (resetEvent s) = .next (u, tr') ∧
      u.block.wvalid = true ∧ u.block.wcount = 20#8 ∧
      ∃ ws : Vector Word 20, ws.toList = u.block.W.take 20 ∧ t.block.F = decodeMeasurement ws

/-! ### Whole-machine rules -/

/-- The "Written by" column of R20: each item is changed only by the commands that column names, W only
at the one entry `gidx` and only by the third byte of a group; the pins to come and the capacity are
never changed. -/
def Obligations.EveryItemIsWrittenOnlyByItsWriters : Prop :=
  ∀ (i : Instr) (s t : State), exec i s = .next t →
    (i.op ≠ .crcInit → i.op ≠ .crcUpd → t.block.crc = s.block.crc) ∧
    (¬(i.op = .wdByte ∧ s.block.phase = .p0) → t.block.b0 = s.block.b0) ∧
    (¬(i.op = .wdByte ∧ s.block.phase = .p1) → t.block.b1 = s.block.b1) ∧
    (i.op ≠ .wdStart → i.op ≠ .wdByte →
      t.block.phase = s.block.phase ∧ t.block.gidx = s.block.gidx ∧
      t.block.crcErr = s.block.crcErr ∧ t.block.isOver = s.block.isOver) ∧
    (i.op ≠ .wdStart → i.op ≠ .wdEnd →
      t.block.isOpen = s.block.isOpen ∧ t.block.wcount = s.block.wcount ∧
      t.block.wvalid = s.block.wvalid ∧ t.block.wdCode = s.block.wdCode) ∧
    (i.op ≠ .wdStart → t.block.expect = s.block.expect) ∧
    (∀ k, ¬(i.op = .wdByte ∧ s.block.isOpen = true ∧ s.block.gidx ≠ s.block.expect ∧
        s.block.phase = .p2 ∧ k = s.block.gidx.toNat) →
      t.block.W[k]? = s.block.W[k]?) ∧
    (i.op ≠ .mdConv → t.block.F = s.block.F) ∧
    (i.op ≠ .mdConv → i.op ≠ .mdInv → t.block.fvalid = s.block.fvalid) ∧
    t.block.wcap = s.block.wcap ∧ t.inputs = s.inputs ∧ t.resetSeen = s.resetSeen

/-- R61: the reading commands change no state and return the same response each time while no writing
command comes between: only reading commands and reserved beats. -/
def Obligations.ReadsHaveNoSideEffects : Prop :=
  ∀ (i : Instr) (cs : List Instr) (s t u v : State) (tr : List (Instr × Response)),
    isRead i = true →
    (∀ c ∈ cs, isRead c = true ∨ c = .reservedD ∨ c = .reservedE ∨ c = .reservedF) →
    exec i s = .next t → execTrace cs t = .next (u, tr) → exec i u = .next v →
    t.block = s.block ∧ u.block = s.block ∧ v.block = s.block ∧ v.rsp = t.rsp

/-- R193: what an error response changes. A refusal and a CRC.CHK verdict change nothing; a WD.END
verdict closes the frame and records itself, with `wvalid` and `wcount` left at 0. -/
def Obligations.ErrorsChangeOnlyWhatTheRuleSays : Prop :=
  ∀ (i : Instr) (s t : State) (r : Response), s.block.Inv → exec i s = .next t → t.rsp = some r →
    (r.code.isRefusal = true → t.block = s.block) ∧
    (r.code = .eCrc → i ≠ .wdEnd → t.block = s.block) ∧
    (i = .wdEnd → r.code = .eLen →
      t.block = { s.block with isOpen := false, wdCode := .eLen } ∧
      t.block.wvalid = false ∧ t.block.wcount = 0#8) ∧
    (i = .wdEnd → r.code = .eCrc →
      t.block = { s.block with isOpen := false, wdCode := .eCrc } ∧
      t.block.wvalid = false ∧ t.block.wcount = 0#8)

/-- R181, R73: the table of the codes: their numbers, which commands raise which, and that no error
response carries data, nor an OK response of a command whose rule defines none. -/
def Obligations.CodesAreRaisedOnlyByTheirCommands : Prop :=
  (Code.ok.toBits = 0#3 ∧ Code.eCrc.toBits = 1#3 ∧ Code.eLen.toBits = 2#3 ∧
    Code.eSeq.toBits = 3#3 ∧ Code.eNores.toBits = 4#3 ∧ Code.eIdx.toBits = 5#3 ∧
    Code.eCap.toBits = 6#3 ∧ Code.eIll.toBits = 7#3) ∧
  ∀ (i : Instr) (s t : State), exec i s = .next t → ∃ r, t.rsp = some r ∧
    (r.code = .eCrc → i.op = .wdEnd ∨ i.op = .crcChk) ∧
    (r.code = .eLen → i.op = .wdEnd) ∧
    (r.code = .eSeq → i.op = .wdByte ∨ i.op = .wdEnd) ∧
    (r.code = .eNores → i.op = .wdRdw ∨ i.op = .mdConv ∨ i.op = .mdRdf) ∧
    (r.code = .eIdx → i.op = .wdRdw ∨ i.op = .mdRdf) ∧
    (r.code = .eCap → i.op = .wdStart) ∧
    (r.code = .eIll → i.op = .reservedD ∨ i.op = .reservedE ∨ i.op = .reservedF) ∧
    (r.code ≠ .ok ∨ definesData i = false → r.data = 0#32)

/-- R184, R185, R186, R187, with the order of R191: a refusal comes exactly when its rule says, and it
is the only response then. -/
def Obligations.RefusalsComeExactlyWhenTheRuleSays : Prop :=
  ∀ (i : Instr) (s t : State) (r : Response), exec i s = .next t → t.rsp = some r →
    (r.code = .eSeq ↔ (i.op = .wdByte ∨ i.op = .wdEnd) ∧ s.block.isOpen = false) ∧
    (r.code = .eNores ↔
      (i.op = .wdRdw ∧ s.block.wvalid = false) ∨
      (i.op = .mdConv ∧ (s.block.wvalid = false ∨ s.block.wcount ≠ 20#8)) ∨
      (i.op = .mdRdf ∧ s.block.fvalid = false)) ∧
    (r.code = .eIdx ↔
      (i.op = .wdRdw ∧ s.block.wvalid = true ∧ s.block.wcount.toNat ≤ i.arg.toNat) ∨
      (i.op = .mdRdf ∧ s.block.fvalid = true ∧ 10 ≤ i.arg.toNat)) ∧
    (r.code = .eCap ↔ i.op = .wdStart ∧ s.block.wcap < i.arg.toNat) ∧
    (r.code.isRefusal = true → t.block = s.block)

/-- R173: the transition table of `open`, with the responses. -/
def Obligations.FrameOpensAndClosesByTheTable : Prop :=
  ∀ (i : Instr) (s t : State) (r : Response), exec i s = .next t → t.rsp = some r →
    (i.op = .wdStart → i.arg.toNat ≤ s.block.wcap → t.block.isOpen = true ∧ r.code = .ok) ∧
    (i.op = .wdStart → s.block.wcap < i.arg.toNat →
      t.block.isOpen = s.block.isOpen ∧ r.code = .eCap) ∧
    (i.op = .wdByte → s.block.isOpen = true → t.block.isOpen = true ∧ r.code = .ok) ∧
    (i.op = .wdByte → s.block.isOpen = false → t.block.isOpen = false ∧ r.code = .eSeq) ∧
    (i.op = .wdEnd → s.block.isOpen = true → t.block.isOpen = false ∧
      (r.code = .ok ∨ r.code = .eLen ∨ r.code = .eCrc)) ∧
    (i.op = .wdEnd → s.block.isOpen = false → t.block.isOpen = false ∧ r.code = .eSeq) ∧
    (i.op ≠ .wdStart → i.op ≠ .wdByte → i.op ≠ .wdEnd → t.block.isOpen = s.block.isOpen)

/-- R32: `open` after a command, and what is refused while it is 0. -/
def Obligations.OpenIsSetAndClearedOnlyByFrameCommands : Prop :=
  (∀ (i : Instr) (s t : State), exec i s = .next t →
    (t.block.isOpen = true ↔
      (i.op = .wdStart ∧ i.arg.toNat ≤ s.block.wcap) ∨ (s.block.isOpen = true ∧ i ≠ .wdEnd))) ∧
  (∀ s, (resetEvent s).block.isOpen = false) ∧
  ∀ s x, s.block.isOpen = false →
    exec (.wdByte x) s = .next (s.after s.block .eSeq 0#32) ∧
    exec .wdEnd s = .next (s.after s.block .eSeq 0#32)

/-- R33: `wvalid` is set only by a WD.END that responds OK and cleared only by an accepted WD.START and
by reset; a failed WD.END finds it 0 and leaves it 0. -/
def Obligations.WvalidIsSetOnlyByGoodFrameEnd : Prop :=
  (∀ (i : Instr) (s t : State) (r : Response), exec i s = .next t → t.rsp = some r →
    (t.block.wvalid = true ↔
      (i = .wdEnd ∧ r.code = .ok) ∨
      (s.block.wvalid = true ∧ ¬(i.op = .wdStart ∧ r.code = .ok))) ∧
    (s.block.Inv → i = .wdEnd → r.code = .eLen ∨ r.code = .eCrc →
      s.block.wvalid = false ∧ t.block.wvalid = false)) ∧
  ∀ s, (resetEvent s).block.wvalid = false

/-- R34: `fvalid` is set only by an MD.CONV that responds OK and cleared only by MD.INV and by reset. -/
def Obligations.FvalidIsSetOnlyByConversion : Prop :=
  (∀ (i : Instr) (s t : State) (r : Response), exec i s = .next t → t.rsp = some r →
    (t.block.fvalid = true ↔
      (i = .mdConv ∧ r.code = .ok) ∨ (s.block.fvalid = true ∧ i ≠ .mdInv))) ∧
  ∀ s, (resetEvent s).block.fvalid = false

/-- R35: `crc_err` and `over` are sticky within a frame, set and cleared as the rule says, and no
response but WD.END's depends on them. -/
def Obligations.ErrorFlagsAreStickyAndHidden : Prop :=
  (∀ (i : Instr) (s t : State), exec i s = .next t →
    (i.op = .wdStart → i.arg.toNat ≤ s.block.wcap →
      t.block.crcErr = false ∧ t.block.isOver = false) ∧
    (¬(i.op = .wdStart ∧ i.arg.toNat ≤ s.block.wcap) →
      (t.block.crcErr = true ↔ s.block.crcErr = true ∨
        (i.op = .wdByte ∧ s.block.isOpen = true ∧ s.block.gidx ≠ s.block.expect ∧
          s.block.phase = .p2 ∧ i.arg ≠ crc8 [s.block.b0, s.block.b1])) ∧
      (t.block.isOver = true ↔ s.block.isOver = true ∨
        (i.op = .wdByte ∧ s.block.isOpen = true ∧ s.block.gidx = s.block.expect)))) ∧
  (∀ s, (resetEvent s).block.crcErr = false ∧ (resetEvent s).block.isOver = false) ∧
  ∀ (i : Instr) (s t t' : State) (e o : Bool), i ≠ .wdEnd → exec i s = .next t →
    exec i { s with block := { s.block with crcErr := e, isOver := o } } = .next t' →
    t'.rsp = t.rsp

/-- R36 and R37: what `expect`, `wcount` and `wd_code` hold after a command. -/
def Obligations.FrameRegistersHoldWhatTheRuleSays : Prop :=
  (∀ (i : Instr) (s t : State) (r : Response), exec i s = .next t → t.rsp = some r →
    (i.op = .wdStart → r.code = .ok →
      t.block.expect = i.arg ∧ i.arg.toNat ≤ t.block.wcap ∧ t.block.wcount = 0#8 ∧
      t.block.wdCode = .ok) ∧
    (i.op = .wdStart → r.code ≠ .ok →
      t.block.expect = s.block.expect ∧ t.block.wcount = s.block.wcount ∧
      t.block.wdCode = s.block.wdCode) ∧
    (i.op ≠ .wdStart → t.block.expect = s.block.expect) ∧
    (i = .wdEnd → r.code = .ok → t.block.wcount = s.block.expect) ∧
    (i = .wdEnd → r.code ≠ .eSeq → t.block.wdCode.toCode = r.code) ∧
    (i = .wdEnd → r.code ≠ .ok → t.block.wcount = s.block.wcount) ∧
    (i = .wdEnd → r.code = .eSeq → t.block.wdCode = s.block.wdCode) ∧
    (i.op ≠ .wdStart → i ≠ .wdEnd →
      t.block.wcount = s.block.wcount ∧ t.block.wdCode = s.block.wdCode)) ∧
  ∀ s, (resetEvent s).block.wdCode = .ok

/-- R135: every byte of an open frame is answered OK with no data, whatever the bytes are, so that the
responses reveal nothing of a frame that will fail. -/
def Obligations.BytesOfAFrameAreAnsweredAlike : Prop :=
  ∀ (s : State) (xs : List Byte), s.block.Inv → s.block.isOpen = true →
    ∃ t, execTrace (xs.map .wdByte) s =
      .next (t, xs.map fun x => (.wdByte x, ⟨.ok, 0#32⟩)) ∧ t.block.isOpen = true

/-- R221, R28: CE commands and the other commands do not interfere. A mixed list gives each side what it
would give alone: the CE commands the same responses and the same `crc`, the others the same responses
and the same rest of the block. -/
def Obligations.ChecksumEngineAndFramesDoNotInterfere : Prop :=
  ∀ (s : State) (cs : List Instr), s.block.Inv →
    ∃ t u v tr tru trv, execTrace cs s = .next (t, tr) ∧
      execTrace (cs.filter isCe) s = .next (u, tru) ∧
      execTrace (cs.filter fun i => !isCe i) s = .next (v, trv) ∧
      t.block = { v.block with crc := u.block.crc } ∧
      (tr.filter fun p => isCe p.1) = tru ∧ (tr.filter fun p => !isCe p.1) = trv

/-- R174: CRC.INIT, WD.START 0, WD.END, MD.INV leave every reset-valued field at its reset value except
`wvalid`, which is 1 with `wcount` = 0. -/
def Obligations.SoftResetIsResetButForWvalid : Prop :=
  ∀ s : State, ∃ t tr, execTrace [.crcInit, .wdStart 0#8, .wdEnd, .mdInv] s = .next (t, tr) ∧
    t.block = { resetBlock s.block with wvalid := true } ∧ t.block.wcount = 0#8

/-! ### The checksum -/

/-- R100, R101, R102, R104: the step on bits, the eight steps, the span as a fold from 0xFF, and the
value of the empty span. -/
def Obligations.ChecksumIsTheSpecifiedAlgorithm : Prop :=
  (∀ x : Byte, crc8Step x =
    (x.extractLsb' 0 7 ++ 0#1) ^^^ (if x[7] = true then 0x31#8 else 0x00#8)) ∧
  (∀ c b : Byte, crc8Update c b = crc8Step (crc8Step (crc8Step (crc8Step (crc8Step (crc8Step
    (crc8Step (crc8Step (c ^^^ b))))))))) ∧
  crc8 [] = 0xFF#8 ∧ ∀ (bytes : List Byte) (b : Byte), crc8 (bytes ++ [b]) = crc8Update (crc8 bytes) b

/-- R105 (a), (b), (c), (f): the step is linear and a bijection, so is its eightfold repeat, and for every
running value and target there is exactly one byte; a leading 0x03 is not seen. -/
def Obligations.ChecksumStepIsLinearAndBijective : Prop :=
  Function.Bijective crc8Step ∧
  (∀ x y : Byte, crc8Step (x ^^^ y) = crc8Step x ^^^ crc8Step y) ∧
  (∀ c b : Byte, crc8Update c b = crc8Update 0#8 (c ^^^ b) ∧
    crc8Update c b = crc8Update 0#8 c ^^^ crc8Update 0#8 b) ∧
  (∀ c : Byte, Function.Bijective (crc8Update c)) ∧
  (∀ b : Byte, Function.Bijective fun c => crc8Update c b) ∧
  (∀ t c : Byte, ∃! b, crc8Update c b = t) ∧
  ∀ l : List Byte, crc8 (0x03#8 :: l) = crc8 l

/-- R105 (d), (e): flipping one bit anywhere in a list changes the checksum; in a group, flipping one bit
of any byte, or two bits of the data bytes, makes the check fail. -/
def Obligations.ChecksumDetectsSingleBitErrors : Prop :=
  (∀ (pre post : List Byte) (b : Byte) (k : Nat), k < 8 →
    crc8 (pre ++ (b ^^^ BitVec.twoPow 8 k) :: post) ≠ crc8 (pre ++ b :: post)) ∧
  (∀ (g0 g1 : Byte) (k : Nat), k < 8 →
    groupPasses (g0 ^^^ BitVec.twoPow 8 k) g1 (crc8 [g0, g1]) = false ∧
    groupPasses g0 (g1 ^^^ BitVec.twoPow 8 k) (crc8 [g0, g1]) = false ∧
    groupPasses g0 g1 (crc8 [g0, g1] ^^^ BitVec.twoPow 8 k) = false) ∧
  ∀ (g0 g1 : Byte) (j k : Nat), j < 16 → k < 16 → j ≠ k →
    groupPasses
      (wordHi ((g0 ++ g1) ^^^ BitVec.twoPow 16 j ^^^ BitVec.twoPow 16 k))
      (wordLo ((g0 ++ g1) ^^^ BitVec.twoPow 16 j ^^^ BitVec.twoPow 16 k)) (crc8 [g0, g1]) = false

/-- R110: from any reachable state, CRC.INIT and then CRC.UPD commands, with any commands but CRC.INIT
mixed in anywhere, leave `crc` at the checksum of the bytes; a CRC.GET then responds it and a CRC.CHK
compares with it. -/
def Obligations.CrcCommandsRefineChecksum : Prop :=
  ∀ (s : State) (cs : List Instr), s.block.Inv → (∀ c ∈ cs, c ≠ .crcInit) →
    ∃ t tr, execTrace (.crcInit :: cs) s = .next (t, tr) ∧
      t.block.crc = crc8 (crcBytes cs) ∧
      exec .crcGet t = .next (t.after t.block .ok ((crc8 (crcBytes cs)).zeroExtend 32)) ∧
      ∀ c, exec (.crcChk c) t = .next
        (t.after t.block (if c = crc8 (crcBytes cs) then .ok else .eCrc) 0#32)

/-- R111: without a CRC.INIT, CRC.UPD commands continue from the running value, so a span may be taken in
pieces; directly after reset they give the checksum of the bytes. -/
def Obligations.ChecksumMayBeComputedInPieces : Prop :=
  (∀ (s : State) (bs : List Byte), ∃ t tr, execTrace (bs.map .crcUpd) s = .next (t, tr) ∧
    t.block = { s.block with crc := bs.foldl crc8Update s.block.crc }) ∧
  (∀ (s : State) (bs : List Byte), ∃ t tr, execTrace (bs.map .crcUpd) (resetEvent s) = .next (t, tr) ∧
    t.block.crc = crc8 bs) ∧
  ∀ bs bs' : List Byte, crc8 (bs ++ bs') = bs'.foldl crc8Update (crc8 bs)

/-- R86: CHECKSUM responds the checksum of its bytes, from any state, as the response of its CRC.GET. -/
def Obligations.ChecksumPseudoInstructionRespondsChecksum : Prop :=
  ∀ (s : State) (bs : List Byte), ∃ t tr,
    execTrace (.crcInit :: (bs.map .crcUpd ++ [.crcGet])) s = .next (t, tr) ∧
    checksumProgram bs = .crcInit :: (bs.map .crcUpd ++ [.crcGet]) ∧
    t.rsp = some ⟨.ok, (crc8 bs).zeroExtend 32⟩ ∧ t.block = { s.block with crc := crc8 bs }

/-! ### Frames -/

/-- R121, R122, R123, R124, R125: `decode_words` by positions. The length test comes first and is exact;
then every group must match; a success carries all the words in order. -/
def Obligations.DecodeWordsByPositions : Prop :=
  ∀ (bytes : List Byte) (n : Nat),
    (decodeWords bytes n = .lengthFailure ↔ bytes.length ≠ 3 * n) ∧
    (decodeWords bytes n = .checksumFailure ↔ bytes.length = 3 * n ∧
      ∃ j g0 g1 g2, j < n ∧ bytes[3 * j]? = some g0 ∧ bytes[3 * j + 1]? = some g1 ∧
        bytes[3 * j + 2]? = some g2 ∧ g2 ≠ crc8 [g0, g1]) ∧
    ∀ ws, decodeWords bytes n = .words ws ↔ bytes.length = 3 * n ∧ ws.length = n ∧
      ∀ j, j < n → ∃ g0 g1, bytes[3 * j]? = some g0 ∧ bytes[3 * j + 1]? = some g1 ∧
        bytes[3 * j + 2]? = some (crc8 [g0, g1]) ∧ ws[j]? = some (g0 ++ g1)

/-- R127: decoding the encoding of any list of words gives the words back; on the block it holds for
every count up to `WCAP`: the encoded frame is accepted from any state and every word reads back. -/
def Obligations.DecodeOfEncodedWordsIsIdentity : Prop :=
  (∀ ws : List Word, (encodeWords ws).length = 3 * ws.length ∧
    decodeWords (encodeWords ws) ws.length = .words ws) ∧
  ∀ (s : State) (n : Byte) (ws : List Word), ws.length = n.toNat → n.toNat ≤ s.block.wcap →
    ∃ t tr, execTrace (frameProgram n (encodeWords ws)) s = .next (t, tr) ∧
      t.rsp = some ⟨.ok, n.zeroExtend 32⟩ ∧ t.block.wvalid = true ∧ t.block.wcount = n ∧
      ∀ (k : Byte) w, ws[k.toNat]? = some w →
        exec (.wdRdw k) t = .next (t.after t.block .ok (w.zeroExtend 32))

/-- R79, R80, R83: the serial-number string is the data bytes of the frame in wire order, two to a word,
high byte first; the data-ready test is on the low byte of the word; the start-measurement payload ends
in the group of 0x03, 0x00. -/
def Obligations.NamedPayloadsAreLaidOutAsTheRuleSays : Prop :=
  (∀ (ws : List Word) (i : Nat) (w : Word), ws[i]? = some w →
    (serialString ws).length = 2 * ws.length ∧
    (serialString ws)[2 * i]? = some (w.extractLsb' 8 8) ∧
    (serialString ws)[2 * i + 1]? = some (w.extractLsb' 0 8) ∧
    (encodeWords ws)[3 * i]? = (serialString ws)[2 * i]? ∧
    (encodeWords ws)[3 * i + 1]? = (serialString ws)[2 * i + 1]?) ∧
  (∀ w : Word, dataReady w = true ↔ w.extractLsb' 0 8 ≠ 0x00#8) ∧
  startMeasurementPayload = [0x00#8, 0x10#8, 0x03#8, 0x00#8, 0xAC#8]

/-- R128: a length that is no multiple of three fails for every count; a changed checksum byte, and any
flipped bit anywhere, in an otherwise valid frame gives a Checksum Failure. -/
def Obligations.CorruptedFramesAreRejected : Prop :=
  (∀ (bytes : List Byte) (n : Nat), bytes.length % 3 ≠ 0 →
    decodeWords bytes n = .lengthFailure) ∧
  (∀ (bytes : List Byte) (n j : Nat) (ws : List Word) (c : Byte),
    decodeWords bytes n = .words ws → j < n → bytes[3 * j + 2]? ≠ some c →
    decodeWords (bytes.set (3 * j + 2) c) n = .checksumFailure) ∧
  ∀ (bytes : List Byte) (n j k : Nat) (ws : List Word) (b : Byte),
    decodeWords bytes n = .words ws → bytes[j]? = some b → k < 8 →
    decodeWords (bytes.set j (b ^^^ BitVec.twoPow 8 k)) n = .checksumFailure

/-- R133: from any state, a frame run on the block is `decode_words`: WD.START, then WD.BYTE commands with
other commands mixed in, then WD.END gives the function's verdict; on success every word reads back,
on failure nothing is readable until a later frame succeeds. -/
def Obligations.FrameRunRefinesDecodeWords : Prop :=
  ∀ (s : State) (n : Byte) (cs : List Instr), n.toNat ≤ s.block.wcap →
    (∀ c ∈ cs, insideFrame c = true) →
    ∃ t tr u, execTrace (.wdStart n :: cs) s = .next (t, tr) ∧ exec .wdEnd t = .next u ∧
      (∀ ws, decodeWords (frameBytes cs) n.toNat = .words ws →
        u.rsp = some ⟨.ok, n.zeroExtend 32⟩ ∧ u.block.wvalid = true ∧ u.block.wcount = n ∧
        ∀ (k : Byte) w, ws[k.toNat]? = some w →
          exec (.wdRdw k) u = .next (u.after u.block .ok (w.zeroExtend 32))) ∧
      (decodeWords (frameBytes cs) n.toNat = .lengthFailure →
        u.rsp = some ⟨.eLen, 0#32⟩ ∧ NoPartialResult u) ∧
      (decodeWords (frameBytes cs) n.toNat = .checksumFailure →
        u.rsp = some ⟨.eCrc, 0#32⟩ ∧ NoPartialResult u)

/-- R87: FRAME. Accepted, it answers with the verdict of its bytes. With a count above `WCAP` it is
harmless only when no frame is open: then every command is refused and nothing changes. With a frame open
the refused WD.START leaves it open, and the bytes and the end go to that frame. -/
def Obligations.FramePseudoInstructionGivesVerdict : Prop :=
  (∀ (s : State) (n : Byte) (xs : List Byte), n.toNat ≤ s.block.wcap →
    ∃ u tr, execTrace (frameProgram n xs) s = .next (u, tr) ∧
      u.rsp = some (match decodeWords xs n.toNat with
        | .words _ => ⟨.ok, n.zeroExtend 32⟩
        | .lengthFailure => ⟨.eLen, 0#32⟩
        | .checksumFailure => ⟨.eCrc, 0#32⟩)) ∧
  (∀ (s : State) (n : Byte) (xs : List Byte), s.block.wcap < n.toNat → s.block.isOpen = false →
    execTrace (frameProgram n xs) s =
      .next (s.after s.block .eSeq 0#32,
        (.wdStart n, ⟨.eCap, 0#32⟩) ::
          (xs.map (fun x => (.wdByte x, ⟨.eSeq, 0#32⟩)) ++ [(.wdEnd, ⟨.eSeq, 0#32⟩)]))) ∧
  ∀ (s u : State) (n : Byte) (xs : List Byte) (tr : List (Instr × Response)),
    s.block.wcap < n.toNat → s.block.isOpen = true →
    execTrace (xs.map .wdByte ++ [.wdEnd]) s = .next (u, tr) →
    execTrace (frameProgram n xs) s = .next (u, (.wdStart n, ⟨.eCap, 0#32⟩) :: tr)

/-! ### The measurement -/

/-- R151, R156: the conversion by words and, composed with the Word Decoder, by the bytes of a frame. -/
def Obligations.MeasurementByWordsAndBytes : Prop :=
  (∀ (ws : Vector Word 20) (i : Nat) (h : i < 10),
    (decodeMeasurement ws)[i] = ws[2 * i] ++ ws[2 * i + 1]) ∧
  ∀ (fr : List Byte) (ws : Vector Word 20) (i : Nat) (h : i < 10),
    decodeWords fr 20 = .words ws.toList →
    ∃ a b c d, fr[6 * i]? = some a ∧ fr[6 * i + 1]? = some b ∧ fr[6 * i + 3]? = some c ∧
      fr[6 * i + 4]? = some d ∧ (decodeMeasurement ws)[i] = a ++ b ++ c ++ d

/-- R160: after a good frame of twenty words and no accepted WD.START since, MD.CONV responds OK, and then
`MD.RDF i` responds `decode_measurement(ws)[i]` for every i, across any commands other than an MD.CONV
that responds OK and MD.INV. -/
def Obligations.ConversionRefinesDecodeMeasurement : Prop :=
  ∀ (s t u v : State) (cs ds : List Instr) (ws : Vector Word 20) (tr tr' : List (Instr × Response)),
    20 ≤ s.block.wcap → (∀ c ∈ cs, insideFrame c = true) →
    decodeWords (frameBytes cs) 20 = .words ws.toList →
    execTrace (.wdStart 20#8 :: cs) s = .next (t, tr) → exec .wdEnd t = .next u →
    execTrace ds u = .next (v, tr') →
    (∀ p ∈ tr', p.1.op = .wdStart → p.2.code ≠ .ok) →
    ∃ w, exec .mdConv v = .next w ∧ w.rsp = some ⟨.ok, 0#32⟩ ∧
      ∀ (es : List Instr) (x : State) (tr'' : List (Instr × Response)),
        execTrace es w = .next (x, tr'') →
        (∀ p ∈ tr'', p.1 ≠ .mdInv ∧ (p.1 = .mdConv → p.2.code ≠ .ok)) →
        ∀ (k : Byte) (h : k.toNat < 10),
          exec (.mdRdf k) x = .next (x.after x.block .ok (decodeMeasurement ws)[k.toNat])

/-- R153, with R76 and R78: every measurement passes through unchanged, bit for bit, from any state: the
frame of any ten patterns is accepted and converted, and each pattern reads back at its index. -/
def Obligations.EveryMeasurementPassesThroughUnchanged : Prop :=
  ∀ (s : State) (ps : Vector Pattern 10), 20 ≤ s.block.wcap →
    ∃ t tr, execTrace (frameProgram 20#8 (measurementFrame ps) ++ [.mdConv]) s = .next (t, tr) ∧
      t.rsp = some ⟨.ok, 0#32⟩ ∧ t.block.F = ps ∧
      ∀ (k : Byte) (h : k.toNat < 10),
        exec (.mdRdf k) t = .next (t.after t.block .ok ps[k.toNat])

/-! ### Runs of edges -/

/-- R9, R73: a run of edges without reset is the run of the commands accepted at them: the same block at
the end, and the responses seen at the port are exactly one per accepted command, in order. -/
def Obligations.EdgesRunTheAcceptedCommandsInOrder : Prop :=
  ∀ (s : State) (es : List Pins), s.Inv → s.resetSeen = true → s.inputs = es →
    (∀ p ∈ es, p.rst = false) →
    ∃ t tr u, execTrace (acceptedCommands es) s = .next (t, tr) ∧
      Host.Core.run core es.length s = .next u ∧ u.block = t.block ∧ u.inputs = [] ∧
      tr.map Prod.fst = acceptedCommands es ∧
      (portTrace es.length s).filterMap id = tr.map Prod.snd
end

