-- ==== Sys2Proof/Laws/State.lean ====
section
/-! SUPPORT. One lemma per field for every named update of the state, true by `rfl`, so that no proof
unfolds a record update. -/

namespace Sys2Proof.Machine

variable (s : State) (b : Block) (c : Code) (d : BitVec 32) (beat : Beat)

@[simp] theorem after_block : (s.after b c d).block = b := rfl
@[simp] theorem after_inputs : (s.after b c d).inputs = s.inputs := rfl
@[simp] theorem after_rsp : (s.after b c d).rsp = some ⟨c, d⟩ := rfl
@[simp] theorem after_resetSeen : (s.after b c d).resetSeen = s.resetSeen := rfl

@[simp] theorem resetEvent_block : (resetEvent s).block = resetBlock s.block := rfl
@[simp] theorem resetEvent_inputs : (resetEvent s).inputs = s.inputs := rfl
@[simp] theorem resetEvent_rsp : (resetEvent s).rsp = none := rfl
@[simp] theorem resetEvent_resetSeen : (resetEvent s).resetSeen = true := rfl

@[simp] theorem idleEdge_block : (idleEdge s).block = s.block := rfl
@[simp] theorem idleEdge_inputs : (idleEdge s).inputs = s.inputs := rfl
@[simp] theorem idleEdge_rsp : (idleEdge s).rsp = none := rfl
@[simp] theorem idleEdge_resetSeen : (idleEdge s).resetSeen = s.resetSeen := rfl

@[simp] theorem takePins_block : (takePins s).block = s.block := rfl
@[simp] theorem takePins_inputs : (takePins s).inputs = s.inputs.tail := rfl
@[simp] theorem takePins_rsp : (takePins s).rsp = s.rsp := rfl
@[simp] theorem takePins_resetSeen : (takePins s).resetSeen = s.resetSeen := rfl

@[simp] theorem presentBeat_block : (presentBeat beat s).block = s.block := rfl
@[simp] theorem presentBeat_inputs :
    (presentBeat beat s).inputs = Pins.ofBeat beat :: s.inputs := rfl
@[simp] theorem presentBeat_rsp : (presentBeat beat s).rsp = s.rsp := rfl
@[simp] theorem presentBeat_resetSeen : (presentBeat beat s).resetSeen = true := rfl

@[simp] theorem resetBlock_crc : (resetBlock b).crc = 0xFF#8 := rfl
@[simp] theorem resetBlock_b0 : (resetBlock b).b0 = b.b0 := rfl
@[simp] theorem resetBlock_b1 : (resetBlock b).b1 = b.b1 := rfl
@[simp] theorem resetBlock_phase : (resetBlock b).phase = .p0 := rfl
@[simp] theorem resetBlock_gidx : (resetBlock b).gidx = 0#8 := rfl
@[simp] theorem resetBlock_isOpen : (resetBlock b).isOpen = false := rfl
@[simp] theorem resetBlock_crcErr : (resetBlock b).crcErr = false := rfl
@[simp] theorem resetBlock_isOver : (resetBlock b).isOver = false := rfl
@[simp] theorem resetBlock_expect : (resetBlock b).expect = 0#8 := rfl
@[simp] theorem resetBlock_wcount : (resetBlock b).wcount = 0#8 := rfl
@[simp] theorem resetBlock_wvalid : (resetBlock b).wvalid = false := rfl
@[simp] theorem resetBlock_wdCode : (resetBlock b).wdCode = .ok := rfl
@[simp] theorem resetBlock_W : (resetBlock b).W = b.W := rfl
@[simp] theorem resetBlock_F : (resetBlock b).F = b.F := rfl
@[simp] theorem resetBlock_fvalid : (resetBlock b).fvalid = false := rfl

@[simp] theorem resetFor_block (n : Nat) : (State.resetFor n).block = Block.reset n := rfl
@[simp] theorem resetFor_inputs (n : Nat) : (State.resetFor n).inputs = [] := rfl
@[simp] theorem resetFor_rsp (n : Nat) : (State.resetFor n).rsp = none := rfl
@[simp] theorem resetFor_resetSeen (n : Nat) : (State.resetFor n).resetSeen = true := rfl

end Sys2Proof.Machine
end

