-- ==== Sys2Proof/Laws/Checksum.lean ====
section
/-! SUPPORT. Lemmas about the checksum function: its unfolding over lists and its linearity, step by
step. -/

namespace Sys2Proof.Machine

@[simp] theorem crc8From_nil (c : Byte) : crc8From c [] = c := rfl

@[simp] theorem crc8From_cons (c b : Byte) (l : List Byte) :
    crc8From c (b :: l) = crc8From (crc8Update c b) l := rfl

theorem crc8From_append (c : Byte) (l l' : List Byte) :
    crc8From c (l ++ l') = crc8From (crc8From c l) l' := by simp [crc8From, List.foldl_append]

/-- The running value depends on the running value and the byte only through their XOR (R105 b). -/
theorem crc8Update_eq_zero_xor (c b : Byte) : crc8Update c b = crc8Update 0#8 (c ^^^ b) := by
  simp [crc8Update]

/-- XOR with the same value on the left is injective. -/
theorem xor_left_cancel {x y z : Byte} (h : x ^^^ y = x ^^^ z) : y = z := by
  have := congrArg (x ^^^ ·) h
  simpa [← BitVec.xor_assoc] using this

/-- The step as a shift and a conditional XOR, bit by bit. -/
theorem crc8Step_eq_xor (x : Byte) :
    crc8Step x = (x <<< 1) ^^^ (if x[7] = true then crcPoly else 0#8) := by
  unfold crc8Step
  split <;> simp

theorem crc8Step_xor (x y : Byte) : crc8Step (x ^^^ y) = crc8Step x ^^^ crc8Step y := by
  simp only [crc8Step_eq_xor, BitVec.shiftLeft_xor_distrib, BitVec.getElem_xor]
  have cancel : ∀ a z : Byte, a ^^^ (a ^^^ z) = z := fun a z => by simp
  cases hx : x[7] <;> cases hy : y[7] <;> simp
  · ac_rfl
  · ac_rfl
  · rw [show ∀ a b p : Byte, a ^^^ p ^^^ (b ^^^ p) = p ^^^ (p ^^^ (a ^^^ b)) from
      fun a b p => by ac_rfl, cancel]

theorem crc8Steps_xor (k : Nat) (x y : Byte) :
    crc8Steps k (x ^^^ y) = crc8Steps k x ^^^ crc8Steps k y := by
  induction k generalizing x y with
  | zero => rfl
  | succ k ih => simp [crc8Steps, crc8Step_xor, ih]

/-- Two running values differ after a byte by the update of what they differed by before. -/
theorem crc8Update_xor_left (c d b : Byte) :
    crc8Update (c ^^^ d) b = crc8Update c b ^^^ crc8Update 0#8 d := by
  simp only [crc8Update, BitVec.zero_xor]
  rw [← crc8Steps_xor]
  congr 1
  ac_rfl

end Sys2Proof.Machine
end

