-- ==== Sys2Proof/Laws/Ops.lean ====
section
/-! SUPPORT. One lemma per shared operation that says once everything it can do: responding, the word
buffer, the float registers, the frame's tests. -/

namespace Sys2Proof.Machine

/-- `respond` always completes, with exactly this state. -/
@[simp] theorem respond_eq (b : Block) (c : Code) (d : BitVec 32) (s : State) :
    respond b c d s = .next (s.after b c d) := rfl

/-- `refuse` always completes and leaves the block alone. -/
@[simp] theorem refuse_eq (c : Code) (s : State) :
    refuse c s = .next (s.after s.block c 0#32) := rfl

/-- A write to an entry W has replaces that entry and nothing else. -/
theorem writeW_of_lt {i : Nat} {b : Block} (w : Word) (h : i < b.wcap) :
    writeW i w b = some { b with W := b.W.set i w } := by simp [writeW, h]

/-- A write succeeds exactly at an entry W has. -/
theorem writeW_eq_some {i : Nat} {w : Word} {b b' : Block} :
    writeW i w b = some b' ↔ i < b.wcap ∧ b' = { b with W := b.W.set i w } := by
  unfold writeW
  split <;> simp_all [eq_comm]

/-- A read of an entry W has. -/
theorem readW_of_lt {i : Nat} {b : Block} (h : i < b.wcap) : readW i b = some b.W[i] := by
  simp [readW, h]

/-- Reading back what was written. -/
theorem readW_writeW_same {i : Nat} {w : Word} {b b' : Block} (h : writeW i w b = some b') :
    readW i b' = some w := by
  obtain ⟨hi, rfl⟩ := writeW_eq_some.mp h
  simp [readW, hi]

/-- A write leaves every other entry alone. -/
theorem readW_writeW_other {i k : Nat} {w : Word} {b b' : Block} (h : writeW i w b = some b')
    (hk : k ≠ i) : readW k b' = readW k b := by
  obtain ⟨-, rfl⟩ := writeW_eq_some.mp h
  simp [readW, List.getElem?_set_ne hk.symm]

/-- F has exactly ten registers. -/
theorem readF_of_lt {i : Nat} {b : Block} (h : i < 10) : readF i b = some b.F[i] := by
  simp [readF, h]

theorem readF_of_ge {i : Nat} {b : Block} (h : 10 ≤ i) : readF i b = none := by
  simp [readF, h]

/-- The first `n` entries, when the list has them. -/
theorem firstEntries_of_le {n : Nat} {l : List Word} (h : n ≤ l.length) :
    ∃ v : Vector Word n, firstEntries n l = some v ∧ v.toList = l.take n := by
  refine ⟨⟨(l.take n).toArray, by simp [h]⟩, by simp [firstEntries, h], by simp⟩

theorem firstEntries_eq_some {n : Nat} {l : List Word} {v : Vector Word n}
    (h : firstEntries n l = some v) : n ≤ l.length ∧ v.toList = l.take n := by
  unfold firstEntries at h
  split at h
  · cases h; exact ⟨‹_›, by simp⟩
  · cases h

@[simp] theorem frameFull_iff (b : Block) : frameFull b = true ↔ b.gidx = b.expect := by
  simp [frameFull]

@[simp] theorem groupPasses_iff (g0 g1 c : Byte) :
    groupPasses g0 g1 c = true ↔ c = crc8 [g0, g1] := by simp [groupPasses]

/-- The length test of WD.END, spelled out. -/
@[simp] theorem frameLengthOk_iff (b : Block) :
    frameLengthOk b = true ↔ b.isOver = false ∧ b.phase = .p0 ∧ b.gidx = b.expect := by
  simp [frameLengthOk, and_assoc]

@[simp] theorem zextByte_eq (v : Byte) : zextByte v = v.zeroExtend 32 := rfl
@[simp] theorem zextWord_eq (w : Word) : zextWord w = w.zeroExtend 32 := rfl
@[simp] theorem joinBytes_eq (a b : Byte) : joinBytes a b = a ++ b := rfl
@[simp] theorem joinWords_eq (a b : Word) : joinWords a b = a ++ b := rfl

/-- A counter below another 8-bit value does not wrap when counted up. -/
theorem succ_toNat_of_lt {a b : BitVec 8} (h : a.toNat < b.toNat) :
    (a + 1#8).toNat = a.toNat + 1 := by
  have := b.isLt
  simp [BitVec.toNat_add]; omega

end Sys2Proof.Machine
end

