-- ==== Sys2Proof/Laws/Exec.lean ====
section
/-! SUPPORT. What each command can do, said once: one inversion lemma per command ("if it answers
`next t`, then one of these cases holds"), and the general form of every next state. -/

namespace Sys2Proof.Machine

variable {s t : State} {x n k : Byte}

theorem next_inj {s t : State} (h : (.next s : Host.Outcome State Fault Refusal) = .next t) :
    t = s := by cases h; rfl

theorem exec_nop_cases (h : exec .nop s = .next t) : t = s.after s.block .ok 0#32 := by
  simpa [exec, execNop, eq_comm] using h

theorem exec_crcInit_cases (h : exec .crcInit s = .next t) :
    t = s.after { s.block with crc := 0xFF#8 } .ok 0#32 := by
  simpa [exec, execCrcInit, crcInitial, eq_comm] using h

theorem exec_crcUpd_cases (h : exec (.crcUpd x) s = .next t) :
    t = s.after { s.block with crc := crc8Update s.block.crc x } .ok 0#32 := by
  simpa [exec, execCrcUpd, eq_comm] using h

theorem exec_crcGet_cases (h : exec .crcGet s = .next t) :
    t = s.after s.block .ok (s.block.crc.zeroExtend 32) := by
  simpa [exec, execCrcGet, eq_comm] using h

theorem exec_crcChk_cases (h : exec (.crcChk x) s = .next t) :
    (s.block.crc = x ∧ t = s.after s.block .ok 0#32) ∨
    (s.block.crc ≠ x ∧ t = s.after s.block .eCrc 0#32) := by
  simp only [exec, execCrcChk] at h
  split at h <;> simp_all [eq_comm]

theorem exec_wdStart_cases (h : exec (.wdStart n) s = .next t) :
    (s.block.wcap < n.toNat ∧ t = s.after s.block .eCap 0#32) ∨
    (n.toNat ≤ s.block.wcap ∧ t = s.after { s.block with
      isOpen := true, expect := n, gidx := 0#8, phase := .p0, crcErr := false, isOver := false,
      wvalid := false, wcount := 0#8, wdCode := .ok } .ok 0#32) := by
  simp only [exec, execWdStart] at h
  split at h
  · left; simp_all [eq_comm]
  · right; simp_all [eq_comm]

/-- WD.BYTE: refused, one byte too many, first byte, second byte, or the group's checksum byte. -/
theorem exec_wdByte_cases (h : exec (.wdByte x) s = .next t) :
    (s.block.isOpen = false ∧ t = s.after s.block .eSeq 0#32) ∨
    (s.block.isOpen = true ∧ s.block.gidx = s.block.expect ∧
      t = s.after { s.block with isOver := true } .ok 0#32) ∨
    (s.block.isOpen = true ∧ s.block.gidx ≠ s.block.expect ∧ s.block.phase = .p0 ∧
      t = s.after { s.block with b0 := x, phase := .p1 } .ok 0#32) ∨
    (s.block.isOpen = true ∧ s.block.gidx ≠ s.block.expect ∧ s.block.phase = .p1 ∧
      t = s.after { s.block with b1 := x, phase := .p2 } .ok 0#32) ∨
    (s.block.isOpen = true ∧ s.block.gidx ≠ s.block.expect ∧ s.block.phase = .p2 ∧
      s.block.gidx.toNat < s.block.wcap ∧
      t = s.after { s.block with
        W := s.block.W.set s.block.gidx.toNat (s.block.b0 ++ s.block.b1)
        crcErr := s.block.crcErr || !groupPasses s.block.b0 s.block.b1 x
        gidx := s.block.gidx + 1#8
        phase := .p0 } .ok 0#32) := by
  simp only [exec, execWdByte, refuse_eq, respond_eq] at h
  split at h
  case isFalse ho => exact .inl ⟨by simpa using ho, next_inj h⟩
  case isTrue ho =>
    right
    split at h
    case isTrue hf => exact .inl ⟨ho, by simpa using hf, next_inj h⟩
    case isFalse hf =>
      right
      have hf' : s.block.gidx ≠ s.block.expect := by simpa using hf
      split at h
      case h_1 hp => exact .inl ⟨ho, hf', hp, next_inj h⟩
      case h_2 hp => exact .inr (.inl ⟨ho, hf', hp, next_inj h⟩)
      case h_3 hp =>
        simp only [closeGroup] at h
        split at h
        case h_1 b hb =>
          obtain ⟨hi, rfl⟩ := writeW_eq_some.mp hb
          exact .inr (.inr ⟨ho, hf', hp, hi, next_inj h⟩)
        case h_2 => cases h

/-- WD.END: refused, wrong length, a bad group, or good. -/
theorem exec_wdEnd_cases (h : exec .wdEnd s = .next t) :
    (s.block.isOpen = false ∧ t = s.after s.block .eSeq 0#32) ∨
    (s.block.isOpen = true ∧ frameLengthOk s.block = false ∧
      t = s.after { s.block with isOpen := false, wdCode := .eLen } .eLen 0#32) ∨
    (s.block.isOpen = true ∧ frameLengthOk s.block = true ∧ s.block.crcErr = true ∧
      t = s.after { s.block with isOpen := false, wdCode := .eCrc } .eCrc 0#32) ∨
    (s.block.isOpen = true ∧ frameLengthOk s.block = true ∧ s.block.crcErr = false ∧
      t = s.after { s.block with
        isOpen := false, wvalid := true, wcount := s.block.expect, wdCode := .ok }
        .ok (s.block.expect.zeroExtend 32)) := by
  simp only [exec, execWdEnd, frameVerdict, refuse_eq, respond_eq, zextByte_eq] at h
  by_cases ho : s.block.isOpen = true
  · rw [if_pos ho] at h
    right
    by_cases hl : frameLengthOk s.block = true
    · rw [if_pos hl] at h
      right
      by_cases hc : s.block.crcErr = true
      · rw [if_pos hc] at h; exact .inl ⟨ho, hl, hc, next_inj h⟩
      · rw [if_neg hc] at h; exact .inr ⟨ho, hl, by simpa using hc, next_inj h⟩
    · rw [if_neg hl] at h; exact .inl ⟨ho, Bool.eq_false_of_not_eq_true hl, next_inj h⟩
  · rw [if_neg ho] at h; exact .inl ⟨by simpa using ho, next_inj h⟩

/-- WD.RDW: no valid result, index not below the count, or the word. -/
theorem exec_wdRdw_cases (h : exec (.wdRdw k) s = .next t) :
    (s.block.wvalid = false ∧ t = s.after s.block .eNores 0#32) ∨
    (s.block.wvalid = true ∧ s.block.wcount.toNat ≤ k.toNat ∧
      t = s.after s.block .eIdx 0#32) ∨
    (s.block.wvalid = true ∧ k.toNat < s.block.wcount.toNat ∧
      ∃ w, s.block.W[k.toNat]? = some w ∧ t = s.after s.block .ok (w.zeroExtend 32)) := by
  simp only [exec, execWdRdw, refuse_eq, respond_eq, zextWord_eq] at h
  split at h
  case isFalse hv => exact .inl ⟨by simpa using hv, next_inj h⟩
  case isTrue hv =>
    right
    by_cases hi : k.toNat ≥ s.block.wcount.toNat
    · rw [if_pos hi] at h; exact .inl ⟨hv, hi, next_inj h⟩
    · rw [if_neg hi] at h
      right
      split at h
      case h_1 w hw => exact ⟨hv, Nat.lt_of_not_le hi, w, hw, next_inj h⟩
      case h_2 => cases h

/-- MD.CONV: refused, or all ten registers from the first twenty words. -/
theorem exec_mdConv_cases (h : exec .mdConv s = .next t) :
    ((s.block.wvalid = false ∨ s.block.wcount ≠ 20#8) ∧ t = s.after s.block .eNores 0#32) ∨
    (s.block.wvalid = true ∧ s.block.wcount = 20#8 ∧
      ∃ ws : Vector Word 20, ws.toList = s.block.W.take 20 ∧
        t = s.after { s.block with F := decodeMeasurement ws, fvalid := true } .ok 0#32) := by
  simp only [exec, execMdConv, refuse_eq, respond_eq] at h
  split at h
  case isFalse hv =>
    simp only [Bool.and_eq_true, beq_iff_eq, not_and_or, Bool.not_eq_true] at hv
    exact .inl ⟨hv, next_inj h⟩
  case isTrue hv =>
    right
    simp only [Bool.and_eq_true, beq_iff_eq] at hv
    split at h
    case h_1 ws hw => exact ⟨hv.1, hv.2, ws, (firstEntries_eq_some hw).2, next_inj h⟩
    case h_2 => cases h

/-- MD.RDF: no valid measurement, index not below ten, or the pattern. -/
theorem exec_mdRdf_cases (h : exec (.mdRdf k) s = .next t) :
    (s.block.fvalid = false ∧ t = s.after s.block .eNores 0#32) ∨
    (s.block.fvalid = true ∧ 10 ≤ k.toNat ∧ t = s.after s.block .eIdx 0#32) ∨
    (s.block.fvalid = true ∧ ∃ hk : k.toNat < 10,
      t = s.after s.block .ok s.block.F[k.toNat]) := by
  simp only [exec, execMdRdf, refuse_eq, respond_eq] at h
  split at h
  case isFalse hv => exact .inl ⟨by simpa using hv, next_inj h⟩
  case isTrue hv =>
    right
    by_cases hk : k.toNat < 10
    · rw [readF_of_lt hk] at h; exact .inr ⟨hv, hk, next_inj h⟩
    · rw [readF_of_ge (Nat.le_of_not_lt hk)] at h; exact .inl ⟨hv, Nat.le_of_not_lt hk, next_inj h⟩

theorem exec_mdInv_cases (h : exec .mdInv s = .next t) :
    t = s.after { s.block with fvalid := false } .ok 0#32 := by
  simpa [exec, execMdInv, eq_comm] using h

theorem exec_stat_cases (h : exec .stat s = .next t) :
    t = s.after s.block .ok (statusWord s.block) := by
  simpa [exec, execStat, eq_comm] using h

theorem exec_reserved_cases {i : Instr} (hi : i = .reservedD ∨ i = .reservedE ∨ i = .reservedF)
    (h : exec i s = .next t) : t = s.after s.block .eIll 0#32 := by
  rcases hi with rfl | rfl | rfl <;>
    simpa [exec, execReservedD, execReservedE, execReservedF, eq_comm] using h

/-- Every next state is `after` of some block, code and data: a command touches the block and the
response channel and nothing else. -/
theorem exec_next_after {i : Instr} (h : exec i s = .next t) :
    ∃ b c d, t = s.after b c d ∧ b.wcap = s.block.wcap := by
  cases i with
  | nop => exact ⟨_, _, _, exec_nop_cases h, rfl⟩
  | crcInit => exact ⟨_, _, _, exec_crcInit_cases h, rfl⟩
  | crcUpd x => exact ⟨_, _, _, exec_crcUpd_cases h, rfl⟩
  | crcGet => exact ⟨_, _, _, exec_crcGet_cases h, rfl⟩
  | crcChk x => rcases exec_crcChk_cases h with ⟨-, h⟩ | ⟨-, h⟩ <;> exact ⟨_, _, _, h, rfl⟩
  | wdStart n => rcases exec_wdStart_cases h with ⟨-, h⟩ | ⟨-, h⟩ <;> exact ⟨_, _, _, h, rfl⟩
  | wdByte x =>
    rcases exec_wdByte_cases h with ⟨-, h⟩ | ⟨-, -, h⟩ | ⟨-, -, -, h⟩ | ⟨-, -, -, h⟩ | ⟨-, -, -, -, h⟩ <;>
      exact ⟨_, _, _, h, by simp [Block.wcap]⟩
  | wdEnd =>
    rcases exec_wdEnd_cases h with ⟨-, h⟩ | ⟨-, -, h⟩ | ⟨-, -, -, h⟩ | ⟨-, -, -, h⟩ <;>
      exact ⟨_, _, _, h, rfl⟩
  | wdRdw k =>
    rcases exec_wdRdw_cases h with ⟨-, h⟩ | ⟨-, -, h⟩ | ⟨-, -, _, -, h⟩ <;> exact ⟨_, _, _, h, rfl⟩
  | mdConv => rcases exec_mdConv_cases h with ⟨-, h⟩ | ⟨-, -, _, -, h⟩ <;> exact ⟨_, _, _, h, rfl⟩
  | mdRdf k =>
    rcases exec_mdRdf_cases h with ⟨-, h⟩ | ⟨-, -, h⟩ | ⟨-, _, h⟩ <;> exact ⟨_, _, _, h, rfl⟩
  | mdInv => exact ⟨_, _, _, exec_mdInv_cases h, rfl⟩
  | stat => exact ⟨_, _, _, exec_stat_cases h, rfl⟩
  | reservedD => exact ⟨_, _, _, exec_reserved_cases (by simp) h, rfl⟩
  | reservedE => exact ⟨_, _, _, exec_reserved_cases (by simp) h, rfl⟩
  | reservedF => exact ⟨_, _, _, exec_reserved_cases (by simp) h, rfl⟩

theorem exec_next_rsp {i : Instr} (h : exec i s = .next t) : ∃ r, t.rsp = some r := by
  obtain ⟨b, c, d, rfl, -⟩ := exec_next_after h
  exact ⟨_, rfl⟩

theorem exec_next_inputs {i : Instr} (h : exec i s = .next t) : t.inputs = s.inputs := by
  obtain ⟨b, c, d, rfl, -⟩ := exec_next_after h
  rfl

theorem exec_next_resetSeen {i : Instr} (h : exec i s = .next t) : t.resetSeen = s.resetSeen := by
  obtain ⟨b, c, d, rfl, -⟩ := exec_next_after h
  rfl

theorem exec_next_wcap {i : Instr} (h : exec i s = .next t) : t.block.wcap = s.block.wcap := by
  obtain ⟨b, c, d, rfl, hb⟩ := exec_next_after h
  exact hb

/-- No command is refused by the model. -/
theorem exec_ne_refused (i : Instr) (s : State) (r : Refusal) : exec i s ≠ .refused r := by
  cases i <;>
    simp only [exec, execNop, execCrcInit, execCrcUpd, execCrcGet, execCrcChk, execWdStart, execWdByte,
      closeGroup, execWdEnd, execWdRdw, execMdConv, execMdRdf, execMdInv, execStat, execReservedD,
      execReservedE, execReservedF, respond_eq, refuse_eq] <;>
    (repeat' split) <;> simp

/-! ### Runs of command lists -/

@[simp] theorem execTrace_nil (s : State) : execTrace [] s = .next (s, []) := rfl

/-- A run whose first command completes. -/
theorem execTrace_cons_of_next {i : Instr} {is : List Instr} {s t : State} {r : Response}
    (h : exec i s = .next t) (hr : t.rsp = some r) :
    execTrace (i :: is) s =
      match execTrace is t with
      | .next (u, tr) => .next (u, (i, r) :: tr)
      | .fault f => .fault f
      | .refused f => .refused f := by
  cases hx : execTrace is t <;>
    simp only [execTrace, h, hr, hx, Option.map_some, Option.toList_some, List.singleton_append]

/-- A run that ends: its first command completed and the rest ran from there. -/
theorem execTrace_cons_eq_next {i : Instr} {is : List Instr} {s u : State}
    {tr : List (Instr × Response)} :
    execTrace (i :: is) s = .next (u, tr) ↔
      ∃ t r tr', exec i s = .next t ∧ t.rsp = some r ∧ execTrace is t = .next (u, tr') ∧
        tr = (i, r) :: tr' := by
  constructor
  · intro h
    cases he : exec i s with
    | next t =>
      obtain ⟨r, hr⟩ := exec_next_rsp he
      rw [execTrace_cons_of_next he hr] at h
      cases hx : execTrace is t with
      | next p => simp only [hx, Host.Outcome.next.injEq, Prod.mk.injEq] at h
                  exact ⟨t, r, p.2, rfl, hr, by rw [hx, ← h.1], h.2.symm⟩
      | fault f => simp [hx] at h
      | refused f => simp [hx] at h
    | fault f => simp [execTrace, he] at h
    | refused f => simp [execTrace, he] at h
  · rintro ⟨t, r, tr', h, hr, hx, rfl⟩
    rw [execTrace_cons_of_next h hr, hx]

/-- A run of two lists, one after the other. -/
theorem execTrace_append_eq_next {cs ds : List Instr} {s u : State} {tr : List (Instr × Response)} :
    execTrace (cs ++ ds) s = .next (u, tr) ↔
      ∃ t tr1 tr2, execTrace cs s = .next (t, tr1) ∧ execTrace ds t = .next (u, tr2) ∧
        tr = tr1 ++ tr2 := by
  induction cs generalizing s tr with
  | nil => simp
  | cons c cs ih =>
    simp only [List.cons_append, execTrace_cons_eq_next, ih]
    constructor
    · rintro ⟨t, r, _, h, hr, ⟨v, tr1, tr2, h1, h2, rfl⟩, rfl⟩
      exact ⟨v, (c, r) :: tr1, tr2, ⟨t, r, tr1, h, hr, h1, rfl⟩, h2, rfl⟩
    · rintro ⟨v, _, tr2, ⟨t, r, tr1, h, hr, h1, rfl⟩, h2, rfl⟩
      exact ⟨t, r, _, h, hr, ⟨v, tr1, tr2, h1, h2, rfl⟩, rfl⟩

/-- The trace lists the commands of the run, each once, in order. -/
theorem execTrace_fst {cs : List Instr} {s t : State} {tr : List (Instr × Response)}
    (h : execTrace cs s = .next (t, tr)) : tr.map Prod.fst = cs := by
  induction cs generalizing s tr with
  | nil => simp only [execTrace_nil, Host.Outcome.next.injEq, Prod.mk.injEq] at h; simp [← h.2]
  | cons c cs ih =>
    obtain ⟨u, r, tr', -, -, hx, rfl⟩ := execTrace_cons_eq_next.mp h
    simp [ih hx]

end Sys2Proof.Machine
end

