-- ==== Sys2Proof/Laws/Effect.lean ====
section
/-! SUPPORT. Everything a command can do, as one relation: `Effect b i b' code data` says that command
`i` on block `b` leaves `b'` and responds `code, data`. `exec_next_effect` turns a next state into it,
so that a proof about all commands is one `cases`. -/

namespace Sys2Proof.Machine

/-- The cases of the commands' pseudocode, one constructor per path that completes. -/
inductive Effect (b : Block) : Instr → Block → Code → BitVec 32 → Prop
  | nop : Effect b .nop b .ok 0#32
  | crcInit : Effect b .crcInit { b with crc := 0xFF#8 } .ok 0#32
  | crcUpd (x) : Effect b (.crcUpd x) { b with crc := crc8Update b.crc x } .ok 0#32
  | crcGet : Effect b .crcGet b .ok (b.crc.zeroExtend 32)
  | crcChkOk (c) (h : b.crc = c) : Effect b (.crcChk c) b .ok 0#32
  | crcChkBad (c) (h : b.crc ≠ c) : Effect b (.crcChk c) b .eCrc 0#32
  | wdStartCap (n) (h : b.wcap < n.toNat) : Effect b (.wdStart n) b .eCap 0#32
  | wdStart (n) (h : n.toNat ≤ b.wcap) : Effect b (.wdStart n) { b with
      isOpen := true, expect := n, gidx := 0#8, phase := .p0, crcErr := false, isOver := false,
      wvalid := false, wcount := 0#8, wdCode := .ok } .ok 0#32
  | wdByteSeq (x) (ho : b.isOpen = false) : Effect b (.wdByte x) b .eSeq 0#32
  | wdByteOver (x) (ho : b.isOpen = true) (hg : b.gidx = b.expect) :
      Effect b (.wdByte x) { b with isOver := true } .ok 0#32
  | wdByte0 (x) (ho : b.isOpen = true) (hg : b.gidx ≠ b.expect) (hp : b.phase = .p0) :
      Effect b (.wdByte x) { b with b0 := x, phase := .p1 } .ok 0#32
  | wdByte1 (x) (ho : b.isOpen = true) (hg : b.gidx ≠ b.expect) (hp : b.phase = .p1) :
      Effect b (.wdByte x) { b with b1 := x, phase := .p2 } .ok 0#32
  | wdByte2 (x) (ho : b.isOpen = true) (hg : b.gidx ≠ b.expect) (hp : b.phase = .p2)
      (hi : b.gidx.toNat < b.wcap) :
      Effect b (.wdByte x) { b with
        W := b.W.set b.gidx.toNat (b.b0 ++ b.b1)
        crcErr := b.crcErr || !groupPasses b.b0 b.b1 x
        gidx := b.gidx + 1#8
        phase := .p0 } .ok 0#32
  | wdEndSeq (ho : b.isOpen = false) : Effect b .wdEnd b .eSeq 0#32
  | wdEndLen (ho : b.isOpen = true) (hl : frameLengthOk b = false) :
      Effect b .wdEnd { b with isOpen := false, wdCode := .eLen } .eLen 0#32
  | wdEndCrc (ho : b.isOpen = true) (hl : frameLengthOk b = true) (hc : b.crcErr = true) :
      Effect b .wdEnd { b with isOpen := false, wdCode := .eCrc } .eCrc 0#32
  | wdEndOk (ho : b.isOpen = true) (hl : frameLengthOk b = true) (hc : b.crcErr = false) :
      Effect b .wdEnd { b with isOpen := false, wvalid := true, wcount := b.expect, wdCode := .ok }
        .ok (b.expect.zeroExtend 32)
  | wdRdwNores (k) (hv : b.wvalid = false) : Effect b (.wdRdw k) b .eNores 0#32
  | wdRdwIdx (k) (hv : b.wvalid = true) (hi : b.wcount.toNat ≤ k.toNat) :
      Effect b (.wdRdw k) b .eIdx 0#32
  | wdRdw (k w) (hv : b.wvalid = true) (hi : k.toNat < b.wcount.toNat)
      (hw : b.W[k.toNat]? = some w) : Effect b (.wdRdw k) b .ok (w.zeroExtend 32)
  | mdConvNores (h : b.wvalid = false ∨ b.wcount ≠ 20#8) : Effect b .mdConv b .eNores 0#32
  | mdConv (ws : Vector Word 20) (hv : b.wvalid = true) (hc : b.wcount = 20#8)
      (hw : ws.toList = b.W.take 20) :
      Effect b .mdConv { b with F := decodeMeasurement ws, fvalid := true } .ok 0#32
  | mdRdfNores (k) (hv : b.fvalid = false) : Effect b (.mdRdf k) b .eNores 0#32
  | mdRdfIdx (k) (hv : b.fvalid = true) (hi : 10 ≤ k.toNat) : Effect b (.mdRdf k) b .eIdx 0#32
  | mdRdf (k) (hv : b.fvalid = true) (hi : k.toNat < 10) : Effect b (.mdRdf k) b .ok b.F[k.toNat]
  | mdInv : Effect b .mdInv { b with fvalid := false } .ok 0#32
  | stat : Effect b .stat b .ok (statusWord b)
  | reservedD : Effect b .reservedD b .eIll 0#32
  | reservedE : Effect b .reservedE b .eIll 0#32
  | reservedF : Effect b .reservedF b .eIll 0#32

/-- A command that completes did one of the things `Effect` lists, and touched nothing but the block
and the response channel. -/
theorem exec_next_effect {i : Instr} {s t : State} (h : exec i s = .next t) :
    ∃ b c d, Effect s.block i b c d ∧ t = s.after b c d := by
  cases i with
  | nop => exact ⟨_, _, _, .nop, exec_nop_cases h⟩
  | crcInit => exact ⟨_, _, _, .crcInit, exec_crcInit_cases h⟩
  | crcUpd x => exact ⟨_, _, _, .crcUpd x, exec_crcUpd_cases h⟩
  | crcGet => exact ⟨_, _, _, .crcGet, exec_crcGet_cases h⟩
  | crcChk c =>
    rcases exec_crcChk_cases h with ⟨hc, h⟩ | ⟨hc, h⟩
    · exact ⟨_, _, _, .crcChkOk c hc, h⟩
    · exact ⟨_, _, _, .crcChkBad c hc, h⟩
  | wdStart n =>
    rcases exec_wdStart_cases h with ⟨hn, h⟩ | ⟨hn, h⟩
    · exact ⟨_, _, _, .wdStartCap n hn, h⟩
    · exact ⟨_, _, _, .wdStart n hn, h⟩
  | wdByte x =>
    rcases exec_wdByte_cases h with ⟨ho, h⟩ | ⟨ho, hg, h⟩ | ⟨ho, hg, hp, h⟩ | ⟨ho, hg, hp, h⟩ |
      ⟨ho, hg, hp, hi, h⟩
    · exact ⟨_, _, _, .wdByteSeq x ho, h⟩
    · exact ⟨_, _, _, .wdByteOver x ho hg, h⟩
    · exact ⟨_, _, _, .wdByte0 x ho hg hp, h⟩
    · exact ⟨_, _, _, .wdByte1 x ho hg hp, h⟩
    · exact ⟨_, _, _, .wdByte2 x ho hg hp hi, h⟩
  | wdEnd =>
    rcases exec_wdEnd_cases h with ⟨ho, h⟩ | ⟨ho, hl, h⟩ | ⟨ho, hl, hc, h⟩ | ⟨ho, hl, hc, h⟩
    · exact ⟨_, _, _, .wdEndSeq ho, h⟩
    · exact ⟨_, _, _, .wdEndLen ho hl, h⟩
    · exact ⟨_, _, _, .wdEndCrc ho hl hc, h⟩
    · exact ⟨_, _, _, .wdEndOk ho hl hc, h⟩
  | wdRdw k =>
    rcases exec_wdRdw_cases h with ⟨hv, h⟩ | ⟨hv, hi, h⟩ | ⟨hv, hi, w, hw, h⟩
    · exact ⟨_, _, _, .wdRdwNores k hv, h⟩
    · exact ⟨_, _, _, .wdRdwIdx k hv hi, h⟩
    · exact ⟨_, _, _, .wdRdw k w hv hi hw, h⟩
  | mdConv =>
    rcases exec_mdConv_cases h with ⟨hv, h⟩ | ⟨hv, hc, ws, hw, h⟩
    · exact ⟨_, _, _, .mdConvNores hv, h⟩
    · exact ⟨_, _, _, .mdConv ws hv hc hw, h⟩
  | mdRdf k =>
    rcases exec_mdRdf_cases h with ⟨hv, h⟩ | ⟨hv, hi, h⟩ | ⟨hv, hi, h⟩
    · exact ⟨_, _, _, .mdRdfNores k hv, h⟩
    · exact ⟨_, _, _, .mdRdfIdx k hv hi, h⟩
    · exact ⟨_, _, _, .mdRdf k hv hi, h⟩
  | mdInv => exact ⟨_, _, _, .mdInv, exec_mdInv_cases h⟩
  | stat => exact ⟨_, _, _, .stat, exec_stat_cases h⟩
  | reservedD => exact ⟨_, _, _, .reservedD, exec_reserved_cases (by simp) h⟩
  | reservedE => exact ⟨_, _, _, .reservedE, exec_reserved_cases (by simp) h⟩
  | reservedF => exact ⟨_, _, _, .reservedF, exec_reserved_cases (by simp) h⟩

/-- The effect of a command is determined by the block and the command (R21: no oracle, no draw). -/
theorem Effect.deterministic {b b1 b2 : Block} {i : Instr} {c1 c2 : Code} {d1 d2 : BitVec 32}
    (h : Effect b i b1 c1 d1) (h' : Effect b i b2 c2 d2) : b1 = b2 ∧ c1 = c2 ∧ d1 = d2 := by
  cases h <;> cases h' <;> simp_all
  case mdConv.mdConv =>
    rename_i ws' hw' ws _ _ hw
    rw [Vector.toList_inj.mp (hw'.trans hw.symm)]
  all_goals omega

/-- No command changes the number of entries of W. -/
theorem Effect.wcap_eq {b b' : Block} {i : Instr} {c : Code} {d : BitVec 32}
    (h : Effect b i b' c d) : b'.wcap = b.wcap := by
  cases h <;> simp [Block.wcap]

/-- Inside a frame no result is valid and no verdict recorded, where the invariant holds (R40 c, e). -/
theorem Block.Inv.open_clears {b : Block} (hb : b.Inv) (ho : b.isOpen = true) :
    b.wvalid = false ∧ b.wdCode = .ok ∧ b.wcount = 0#8 := by
  have hv : b.wvalid = false := by
    by_contra hv
    have := (hb.valid_closed (by simpa using hv)).1
    simp [this] at ho
  refine ⟨hv, ?_, hb.invalid_empty hv⟩
  by_contra hc
  have := (hb.failed_closed hc).1
  simp [this] at ho

/-- A group's entry exists where the invariant holds (R130). -/
theorem Block.Inv.gidx_lt {b : Block} (hb : b.Inv) (hg : b.gidx ≠ b.expect) :
    b.gidx.toNat < b.expect.toNat ∧ b.gidx.toNat < b.wcap := by
  have h1 := hb.gidx_le
  have h2 := hb.expect_le
  have : b.gidx.toNat ≠ b.expect.toNat := fun e => hg (BitVec.eq_of_toNat_eq e)
  omega

end Sys2Proof.Machine
end

