-- ==== Sys2Proof/Laws/Encoding.lean ====
section
/-! SUPPORT. The bits of the concatenations: a beat's fields, a word's bytes, a pattern's words, the
status word's fields. -/

namespace Sys2Proof

theorem joinBeat_getLsbD (op : OpBits) (arg : Byte) (i : Nat) :
    (joinBeat op arg).getLsbD i = if i < 8 then arg.getLsbD i else op.getLsbD (i - 8) :=
  BitVec.getLsbD_append

@[simp] theorem beatOp_joinBeat (op : OpBits) (arg : Byte) : beatOp (joinBeat op arg) = op := by
  refine BitVec.eq_of_getLsbD_eq fun i hi => ?_
  simp [beatOp, hi, joinBeat_getLsbD]

@[simp] theorem beatArg_joinBeat (op : OpBits) (arg : Byte) : beatArg (joinBeat op arg) = arg := by
  refine BitVec.eq_of_getLsbD_eq fun i hi => ?_
  simp [beatArg, hi, joinBeat_getLsbD]

/-- A beat is its two fields joined. -/
@[simp] theorem joinBeat_fields (beat : Beat) : joinBeat (beatOp beat) (beatArg beat) = beat := by
  refine BitVec.eq_of_getLsbD_eq fun i hi => ?_
  rw [joinBeat_getLsbD]
  split
  · simp [beatArg, *]
  · simp only [beatOp, BitVec.getLsbD_extractLsb']
    rw [show 8 + (i - 8) = i by omega]
    simp; omega

theorem decode_joinBeat (op : OpBits) (arg : Byte) :
    decode (joinBeat op arg) = Instr.ofOp (Op.ofBits op) arg := by
  simp [decode]

/-- The table of R71 read in one direction and then in the other. -/
@[simp] theorem Op.ofBits_toBits (op : Op) : Op.ofBits op.toBits = op := by cases op <;> rfl

theorem Op.toBits_ofBits (op : OpBits) : (Op.ofBits op).toBits = op := by revert op; decide

namespace Machine

theorem joinBytes_getLsbD (hi lo : Byte) (i : Nat) :
    (joinBytes hi lo).getLsbD i = if i < 8 then lo.getLsbD i else hi.getLsbD (i - 8) :=
  BitVec.getLsbD_append

theorem joinWords_getLsbD (hi lo : Word) (i : Nat) :
    (joinWords hi lo).getLsbD i = if i < 16 then lo.getLsbD i else hi.getLsbD (i - 16) :=
  BitVec.getLsbD_append

@[simp] theorem wordHi_append (hi lo : Byte) : wordHi (hi ++ lo) = hi := by
  refine BitVec.eq_of_getLsbD_eq fun i h => ?_
  have := joinBytes_getLsbD hi lo (8 + i)
  simp [wordHi, h, joinBytes] at this ⊢
  exact this

@[simp] theorem wordLo_append (hi lo : Byte) : wordLo (hi ++ lo) = lo := by
  refine BitVec.eq_of_getLsbD_eq fun i h => ?_
  have := joinBytes_getLsbD hi lo i
  simp [wordLo, h, joinBytes] at this ⊢
  exact this

/-- A word is its two bytes joined. -/
@[simp] theorem wordHi_append_wordLo (w : Word) : wordHi w ++ wordLo w = w := by
  refine BitVec.eq_of_getLsbD_eq fun i h => ?_
  refine (joinBytes_getLsbD _ _ i).trans ?_
  split
  · simp [wordLo, *]
  · simp only [wordHi, BitVec.getLsbD_extractLsb']
    rw [show 8 + (i - 8) = i by omega]
    simp; omega

/-- A pattern is its two words joined. -/
@[simp] theorem patternHi_append_patternLo (p : Pattern) : patternHi p ++ patternLo p = p := by
  refine BitVec.eq_of_getLsbD_eq fun i h => ?_
  refine (joinWords_getLsbD _ _ i).trans ?_
  split
  · simp [patternLo, *]
  · simp only [patternHi, BitVec.getLsbD_extractLsb']
    rw [show 16 + (i - 16) = i by omega]
    simp; omega

/-- The status word bit by bit (R38). -/
theorem statusWord_getLsbD (b : Block) (i : Nat) : (statusWord b).getLsbD i =
    if i < 1 then (BitVec.ofBool b.isOpen).getLsbD i else
    if i < 2 then (BitVec.ofBool b.wvalid).getLsbD (i - 1) else
    if i < 3 then (BitVec.ofBool b.fvalid).getLsbD (i - 2) else
    if i < 6 then b.wdCode.toBits.getLsbD (i - 3) else
    if i < 8 then false else
    if i < 16 then b.wcount.getLsbD (i - 8) else
    if i < 24 then b.expect.getLsbD (i - 16) else false := by
  unfold statusWord
  erw [BitVec.getLsbD_append, BitVec.getLsbD_append, BitVec.getLsbD_append,
    BitVec.getLsbD_append, BitVec.getLsbD_append, BitVec.getLsbD_append, BitVec.getLsbD_append]
  simp only [Nat.sub_sub, Nat.reduceAdd]
  by_cases c1 : i < 1
  · rw [if_pos c1, if_pos c1]
  rw [if_neg c1, if_neg c1]
  by_cases c2 : i < 2
  · rw [if_pos c2, if_pos (by omega)]
  rw [if_neg c2, if_neg (by omega)]
  by_cases c3 : i < 3
  · rw [if_pos c3, if_pos (by omega)]
  rw [if_neg c3, if_neg (by omega)]
  by_cases c4 : i < 6
  · rw [if_pos c4, if_pos (by omega)]
  rw [if_neg c4, if_neg (by omega)]
  by_cases c5 : i < 8
  · rw [if_pos c5, if_pos (by omega)]; simp
  rw [if_neg c5, if_neg (by omega)]
  by_cases c6 : i < 16
  · rw [if_pos c6, if_pos (by omega)]
  rw [if_neg c6, if_neg (by omega)]
  by_cases c7 : i < 24
  · rw [if_pos c7, if_pos (by omega)]
  rw [if_neg c7, if_neg (by omega)]; simp

end Machine

end Sys2Proof
end

