-- ==== Sys2Proof/Laws/PerInstr.lean ====
section
/-! SUPPORT. Statements about the command set as syntax, one lemma per constructor (spec rules R70,
R71, R84). -/

namespace Sys2Proof.Laws.SpellsItsRow

/-- The beat of a command spells the row of the table that has the command's `op`, its `arg` field is
the operand, and a command whose format is C0 is written with `arg` 0x00. -/
def Statement (i : Instr) : Prop :=
  (∃ row ∈ opcodeTable, row.op = i.op ∧ row.spelledBy (encode i) = true) ∧
  beatArg (encode i) = i.arg ∧ (i.op.format = .c0 → i.arg = 0x00#8)

/-- The table's mask keeps the `op` field of a beat and nothing of its `arg`. -/
theorem joinBeat_and_mask (op : OpBits) (arg : Byte) :
    joinBeat op arg &&& 0xF00#12 = joinBeat op 0x00#8 := by
  have mask : ∀ i, i < 12 → (0xF00#12).getLsbD i = decide (8 ≤ i) := by decide
  refine BitVec.eq_of_getLsbD_eq fun i hi => ?_
  rw [BitVec.getLsbD_and, mask i hi, joinBeat_getLsbD, joinBeat_getLsbD]
  by_cases h : i < 8
  · simp [h]
  · simp [h, Nat.le_of_not_lt h]

/-- A row with the command's `op` is spelled, whatever the operand. -/
theorem of_row {i : Instr} (row : OpcodeRow) (hr : row ∈ opcodeTable) (ho : row.op = i.op)
    (hm : row.mask = 0xF00#12) (hs : joinBeat row.op.toBits 0x00#8 = row.bitsSet)
    (hf : i.op.format = .c0 → i.arg = 0x00#8) : Statement i :=
  ⟨⟨row, hr, ho, by simp [OpcodeRow.spelledBy, encode, hm, joinBeat_and_mask, ← ho, hs]⟩,
    beatArg_joinBeat _ _, hf⟩

theorem nop : Statement .nop :=
  of_row ⟨"NOP", .nop, 0x000#12, 0xF00#12⟩ (by decide) rfl rfl rfl (fun _ => rfl)

theorem crcInit : Statement .crcInit :=
  of_row ⟨"CRC.INIT", .crcInit, 0x100#12, 0xF00#12⟩ (by decide) rfl rfl rfl (fun _ => rfl)

theorem crcUpd (b : Byte) : Statement (.crcUpd b) :=
  of_row ⟨"CRC.UPD", .crcUpd, 0x200#12, 0xF00#12⟩ (by decide) rfl rfl rfl (nofun)

theorem crcGet : Statement .crcGet :=
  of_row ⟨"CRC.GET", .crcGet, 0x300#12, 0xF00#12⟩ (by decide) rfl rfl rfl (fun _ => rfl)

theorem crcChk (c : Byte) : Statement (.crcChk c) :=
  of_row ⟨"CRC.CHK", .crcChk, 0x400#12, 0xF00#12⟩ (by decide) rfl rfl rfl (nofun)

theorem wdStart (n : Byte) : Statement (.wdStart n) :=
  of_row ⟨"WD.START", .wdStart, 0x500#12, 0xF00#12⟩ (by decide) rfl rfl rfl (nofun)

theorem wdByte (x : Byte) : Statement (.wdByte x) :=
  of_row ⟨"WD.BYTE", .wdByte, 0x600#12, 0xF00#12⟩ (by decide) rfl rfl rfl (nofun)

theorem wdEnd : Statement .wdEnd :=
  of_row ⟨"WD.END", .wdEnd, 0x700#12, 0xF00#12⟩ (by decide) rfl rfl rfl (fun _ => rfl)

theorem wdRdw (k : Byte) : Statement (.wdRdw k) :=
  of_row ⟨"WD.RDW", .wdRdw, 0x800#12, 0xF00#12⟩ (by decide) rfl rfl rfl (nofun)

theorem mdConv : Statement .mdConv :=
  of_row ⟨"MD.CONV", .mdConv, 0x900#12, 0xF00#12⟩ (by decide) rfl rfl rfl (fun _ => rfl)

theorem mdRdf (k : Byte) : Statement (.mdRdf k) :=
  of_row ⟨"MD.RDF", .mdRdf, 0xA00#12, 0xF00#12⟩ (by decide) rfl rfl rfl (nofun)

theorem mdInv : Statement .mdInv :=
  of_row ⟨"MD.INV", .mdInv, 0xB00#12, 0xF00#12⟩ (by decide) rfl rfl rfl (fun _ => rfl)

theorem stat : Statement .stat :=
  of_row ⟨"STAT", .stat, 0xC00#12, 0xF00#12⟩ (by decide) rfl rfl rfl (fun _ => rfl)

theorem reservedD : Statement .reservedD :=
  of_row ⟨"RESERVED.D", .reservedD, 0xD00#12, 0xF00#12⟩ (by decide) rfl rfl rfl (fun _ => rfl)

theorem reservedE : Statement .reservedE :=
  of_row ⟨"RESERVED.E", .reservedE, 0xE00#12, 0xF00#12⟩ (by decide) rfl rfl rfl (fun _ => rfl)

theorem reservedF : Statement .reservedF :=
  of_row ⟨"RESERVED.F", .reservedF, 0xF00#12, 0xF00#12⟩ (by decide) rfl rfl rfl (fun _ => rfl)

end Sys2Proof.Laws.SpellsItsRow
end

