-- ==== Sys2Proof/Laws/Ports.lean ====
section
/-! SUPPORT. One lemma per kind of clock edge, and the step as the edge with the next pins. -/

namespace Sys2Proof.Machine

/-- A step with pins listed is the edge with the first of them. -/
theorem step_of_inputs {s : State} {p : Pins} {es : List Pins} (h : s.inputs = p :: es) :
    step s = clockEdge p { s with inputs := es } := by
  simp [step, nextPins, takePins, h]

/-- A step with no pins listed is an idle edge. -/
theorem step_of_no_inputs {s : State} (h : s.inputs = []) : step s = .next (idleEdge s) := by
  simp [step, nextPins, takePins, h, clockEdge, Pins.idle, Pins.accepted, idleEdge]

/-- A command is accepted exactly when `rst` is 0 and `cmd_valid` is 1 (R209, R223). -/
theorem accepted_iff (p : Pins) : p.accepted = true ↔ p.rst = false ∧ p.cmdValid = true := by
  simp [Pins.accepted, Pins.cmdReady]; tauto

theorem clockEdge_of_rst {p : Pins} {s : State} (h : p.rst = true) :
    clockEdge p s = .next (resetEvent s) := by simp [clockEdge, h]

theorem clockEdge_of_command {p : Pins} {s : State} (h : p.accepted = true)
    (hs : s.resetSeen = true) : clockEdge p s = exec (decode p.beat) s := by
  simp [clockEdge, ((accepted_iff p).mp h).1, h, hs]

theorem clockEdge_of_early_command {p : Pins} {s : State} (h : p.accepted = true)
    (hs : s.resetSeen = false) : clockEdge p s = .refused .beforeFirstReset := by
  simp [clockEdge, ((accepted_iff p).mp h).1, h, hs]

theorem clockEdge_of_no_command {p : Pins} {s : State} (hr : p.rst = false)
    (h : p.accepted = false) : clockEdge p s = .next (idleEdge s) := by
  simp [clockEdge, hr, h]

@[simp] theorem beat_ofBeat (beat : Beat) : (Pins.ofBeat beat).beat = joinBeat (beatOp beat) (beatArg beat) :=
  rfl

@[simp] theorem accepted_ofBeat (beat : Beat) : (Pins.ofBeat beat).accepted = true := rfl

end Sys2Proof.Machine
end

