-- ==== Sys2Proof/Tests/Slice0.lean ====
section
/-! SUPPORT. The model's own tests: the well-formedness smoke, the encodings of spec rule R71 bit by bit,
single steps with the expected results of `spec/95_test_vectors.md`, and for every statement with
hypotheses a state and operands that meet them. -/

namespace Sys2Proof.Tests

open Sys2Proof.Machine

/-! ### Helpers -/

/-- The reset block of the test vectors, `WCAP` = 32. -/
def rb : Block := Block.reset 32

/-- A machine that holds a block and has been reset. -/
def st (b : Block) : State := { State.reset with block := b }

/-- The response and the block after a command. -/
def result (i : Instr) (b : Block) : Option (Response × Block) :=
  match exec i (st b) with
  | .next t => t.rsp.map (·, t.block)
  | .fault _ => none
  | .refused _ => none

/-- A run of commands ends, in a block with a property. -/
def endsWith (P : Block → Bool) (cs : List Instr) (s : State) : Bool :=
  match execTrace cs s with
  | .next p => P p.1.block
  | .fault _ => false
  | .refused _ => false

/-- An open frame of one word with nothing received. -/
def open1 : Block := { rb with isOpen := true, expect := 1#8 }

/-- The same after the two data bytes BE EF. -/
def open1full : Block := { open1 with b0 := 0xBE#8, b1 := 0xEF#8, phase := .p2 }

/-- The same after the good group BE EF 92. -/
def open1done : Block := { open1 with gidx := 1#8, W := rb.W.set 0 0xBEEF#16 }

/-- A valid result of one word. -/
def valid1 : Block :=
  { rb with expect := 1#8, gidx := 1#8, wvalid := true, wcount := 1#8, W := rb.W.set 0 0xBEEF#16 }

/-- A valid result of twenty words, the first pair 1.0. -/
def valid20 : Block :=
  { rb with expect := 20#8, gidx := 20#8, wvalid := true, wcount := 20#8, W := rb.W.set 0 0x3F80#16 }

/-- A valid measurement with F[9] = 10.0. -/
def held : Block := { rb with fvalid := true, F := rb.F.set 9 0x41200000#32 }

/-! ### Well-formedness smoke: an ill-formed term for each check, refused -/

theorem test_beat_of_13_bits_is_refused : wellFormedBeat 0x1000 = false := by decide
theorem test_beat_of_12_bits_is_accepted : wellFormedBeat 0xFFF = true := by decide
theorem test_capacity_19_is_refused : wellFormedCapacity 19 = false := by decide
theorem test_capacity_256_is_refused : wellFormedCapacity 256 = false := by decide
theorem test_capacity_20_32_255_accepted :
    wellFormedCapacity 20 = true ∧ wellFormedCapacity 32 = true ∧ wellFormedCapacity 255 = true := by
  decide
theorem test_instr_never_refused : (Instr.wdStart 255#8).wellFormed = true := by decide

/-! ### Decoding: words written out from R70 and R71 -/

theorem test_decode_nop : decode 0b0000_00000000#12 = .nop := by decide
theorem test_decode_crcInit : decode 0b0001_00000000#12 = .crcInit := by decide
theorem test_decode_crcUpd : decode 0b0010_10111110#12 = .crcUpd 0xBE#8 := by decide
theorem test_decode_crcGet : decode 0b0011_01110111#12 = .crcGet := by decide
theorem test_decode_crcChk : decode 0b0100_10010010#12 = .crcChk 0x92#8 := by decide
theorem test_decode_wdStart : decode 0b0101_00010100#12 = .wdStart 20#8 := by decide
theorem test_decode_wdByte : decode 0b0110_00010001#12 = .wdByte 0x11#8 := by decide
theorem test_decode_wdEnd : decode 0b0111_00000000#12 = .wdEnd := by decide
theorem test_decode_wdRdw : decode 0b1000_00000001#12 = .wdRdw 1#8 := by decide
theorem test_decode_mdConv : decode 0b1001_00000000#12 = .mdConv := by decide
theorem test_decode_mdRdf : decode 0b1010_11111111#12 = .mdRdf 255#8 := by decide
theorem test_decode_mdInv : decode 0b1011_00000000#12 = .mdInv := by decide
theorem test_decode_stat : decode 0b1100_00000000#12 = .stat := by decide
theorem test_decode_reservedD : decode 0b1101_00000000#12 = .reservedD := by decide
theorem test_decode_reservedE : decode 0b1110_01011010#12 = .reservedE := by decide
theorem test_decode_reservedF : decode 0b1111_11111111#12 = .reservedF := by decide
theorem test_encode_some :
    encode (.crcUpd 0xBE#8) = 0x2BE#12 ∧ encode (.wdStart 20#8) = 0x514#12 ∧
    encode .reservedF = 0xF00#12 ∧ encode (.mdRdf 9#8) = 0xA09#12 := by decide
theorem test_table_word : decodeTableWord 16 0x0514 = some (.wdStart 20#8) ∧
    decodeTableWord 16 0x1514 = none := by decide

/-! ### The checksum: vectors V1 and V3 -/

theorem test_crc8Step_vectors :
    crc8Step 0x00#8 = 0x00#8 ∧ crc8Step 0x7F#8 = 0xFE#8 ∧ crc8Step 0x80#8 = 0x31#8 ∧
    crc8Step 0x98#8 = 0x01#8 ∧ crc8Step 0xA5#8 = 0x7B#8 ∧ crc8Step 0xFF#8 = 0xCF#8 := by decide
theorem test_crc8_vectors :
    crc8 [] = 0xFF#8 ∧ crc8 [0x03#8, 0x00#8] = 0xAC#8 ∧ crc8 [0xBE#8, 0xEF#8] = 0x92#8 ∧
    crc8 [0x01#8, 0x02#8, 0x03#8, 0x04#8, 0x05#8] = 0xFB#8 := by decide +kernel

/-! ### One step of each command: the lines of vector V5 and examples of the rules -/

theorem test_nop : result .nop rb = some (⟨.ok, 0#32⟩, rb) := by decide
theorem test_crcInit :
    result .crcInit { rb with crc := 0x92#8 } = some (⟨.ok, 0#32⟩, rb) := by decide
theorem test_crcUpd :
    result (.crcUpd 0xEF#8) { rb with crc := 0x0C#8 } =
      some (⟨.ok, 0#32⟩, { rb with crc := 0x92#8 }) := by decide
theorem test_crcGet :
    (result .crcGet { rb with crc := 0x92#8 }).map Prod.fst = some ⟨.ok, 0x00000092#32⟩ := by decide
theorem test_crcChk_equal :
    (result (.crcChk 0x92#8) { rb with crc := 0x92#8 }).map Prod.fst = some ⟨.ok, 0#32⟩ := by decide
theorem test_crcChk_different :
    result (.crcChk 0x93#8) { rb with crc := 0x92#8 } =
      some (⟨.eCrc, 0#32⟩, { rb with crc := 0x92#8 }) := by decide
theorem test_wdStart_32 :
    result (.wdStart 32#8) rb =
      some (⟨.ok, 0#32⟩, { rb with isOpen := true, expect := 32#8 }) := by decide
theorem test_wdStart_33 : result (.wdStart 33#8) open1 = some (⟨.eCap, 0#32⟩, open1) := by decide
theorem test_wdByte_bad_group :
    (result (.wdByte 0x93#8) open1full).map (fun r => (r.1, r.2.W[0]?, r.2.crcErr, r.2.gidx, r.2.phase)) =
      some (⟨.ok, 0#32⟩, some 0xBEEF#16, true, 1#8, .p0) := by decide +kernel
theorem test_wdByte_over :
    result (.wdByte 0x00#8) open1done = some (⟨.ok, 0#32⟩, { open1done with isOver := true }) := by
  decide
theorem test_wdEnd_good :
    result .wdEnd open1done = some (⟨.ok, 0x00000001#32⟩, valid1) := by decide
theorem test_wdEnd_length_wins :
    (result .wdEnd { open1done with isOver := true, crcErr := true }).map
      (fun r => (r.1, r.2.isOpen, r.2.wdCode, r.2.wvalid)) =
      some (⟨.eLen, 0#32⟩, false, .eLen, false) := by decide
theorem test_wdRdw_word :
    result (.wdRdw 0#8) valid1 = some (⟨.ok, 0x0000BEEF#32⟩, valid1) := by decide
theorem test_wdRdw_past_end : result (.wdRdw 1#8) valid1 = some (⟨.eIdx, 0#32⟩, valid1) := by decide
theorem test_mdConv_twenty_words :
    (result .mdConv valid20).map (fun r => (r.1, r.2.F[0], r.2.F[9], r.2.fvalid)) =
      some (⟨.ok, 0#32⟩, 0x3F800000#32, 0#32, true) := by decide
theorem test_mdConv_sixteen_words :
    (result .mdConv { valid20 with wcount := 16#8 }).map Prod.fst = some ⟨.eNores, 0#32⟩ := by decide
theorem test_mdRdf_last : result (.mdRdf 9#8) held = some (⟨.ok, 0x41200000#32⟩, held) := by decide
theorem test_mdRdf_past_end : result (.mdRdf 10#8) held = some (⟨.eIdx, 0#32⟩, held) := by decide
theorem test_mdInv :
    result .mdInv held = some (⟨.ok, 0#32⟩, { held with fvalid := false }) := by decide
theorem test_stat_after_bad_frame :
    (result .stat { rb with expect := 20#8, wdCode := .eCrc, fvalid := true }).map Prod.fst =
      some ⟨.ok, 0x0014000C#32⟩ := by decide
theorem test_reservedD : result .reservedD held = some (⟨.eIll, 0#32⟩, held) := by decide
theorem test_reservedE : result .reservedE valid1 = some (⟨.eIll, 0#32⟩, valid1) := by decide
theorem test_reservedF : result .reservedF open1 = some (⟨.eIll, 0#32⟩, open1) := by decide

/-! ### The wire data: vectors V4 and V6, example S3 -/

theorem test_float_cell_of_signalling_nan :
    floatCell 0x7F800001#32 = [0x7F#8, 0x80#8, 0x59#8, 0x00#8, 0x01#8, 0xB0#8] := by decide +kernel
theorem test_start_measurement_payload :
    startMeasurementPayload = [0x00#8, 0x10#8, 0x03#8, 0x00#8, 0xAC#8] := by decide +kernel
theorem test_decodeWords_length_wins :
    decodeWords [0x12#8, 0x34#8, 0x36#8, 0x00#8] 1 = .lengthFailure := by decide
theorem test_decodeWords_multiple_of_three_too_short :
    decodeWords [0x12#8, 0x34#8, 0x37#8, 0xAB#8, 0xCD#8, 0x6F#8] 3 = .lengthFailure := by decide

/-! ### Assembly text: the examples of R85 -/

theorem test_text :
    lineText .crcGet ⟨.ok, 0xAC#32⟩ = "CRC.GET -> OK, 0x000000AC" ∧
    commandText (.crcUpd 0x03#8) = "CRC.UPD 0x03" ∧ commandText (.wdStart 20#8) = "WD.START 20" := by
  decide

/-! ### The first step after reset -/

theorem test_fetch_word_runs_first :
    step (State.reset.withFetchWord 16 0x2BE) =
      .next { State.reset with block := { rb with crc := 0x0C#8 }, rsp := some ⟨.ok, 0#32⟩ } := rfl

/-! ### Witnesses: for every statement with hypotheses, a state and operands that meet them

One clause after another, at the bounds of the operands where there is a bound. -/

theorem inv_rb : rb.Inv := by constructor <;> decide
theorem inv_open1 : open1.Inv := by constructor <;> decide
theorem inv_open1full : open1full.Inv := by constructor <;> decide
theorem inv_open1done : open1done.Inv := by constructor <;> decide
theorem inv_valid1 : valid1.Inv := by constructor <;> decide
theorem inv_valid20 : valid20.Inv := by constructor <;> decide
theorem inv_held : held.Inv := by constructor <;> decide

/-- A machine with an invariant block meets the invariant of the machine. -/
theorem inv_st {b : Block} (h : b.Inv) : (st b).Inv :=
  ⟨h.wcap_ge, h.wcap_le, fun _ => h, fun _ hr => by simp [st, State.reset, State.resetFor] at hr⟩

/-- A run that ends has an end. -/
theorem endsWith_next {P : Block → Bool} {cs : List Instr} {s : State} (h : endsWith P cs s = true) :
    ∃ t tr, execTrace cs s = .next (t, tr) ∧ P t.block = true := by
  unfold endsWith at h
  split at h
  · exact ⟨_, _, ‹_›, h⟩
  · cases h
  · cases h

/-- A command whose result can be read completes. -/
theorem result_next {i : Instr} {b : Block} {r : Response × Block} (h : result i b = some r) :
    ∃ t, exec i (st b) = .next t ∧ t.rsp = some r.1 ∧ t.block = r.2 := by
  cases he : exec i (st b) with
  | next t =>
    simp only [result, he, Option.map_eq_some_iff] at h
    obtain ⟨a, ha, rfl⟩ := h
    exact ⟨t, rfl, ha, rfl⟩
  | fault f => simp [result, he] at h
  | refused r => simp [result, he] at h

theorem witness_CrcChkComparesWithoutAbsorbing :
    (st rb).block.crc = 0xFF#8 ∧ (st rb).block.crc ≠ 0xFE#8 := by decide

theorem witness_WdStartOpensFrameOrRefuses :
    (st rb).block.wcap < (33#8).toNat ∧ (32#8).toNat ≤ (st rb).block.wcap ∧
    (st rb).block.fvalid = false ∧
    ∃ t, exec (.wdStart 20#8) (st rb) = .next t ∧ t.rsp = some ⟨.ok, 0#32⟩ :=
  ⟨by decide, by decide, rfl, _, rfl, rfl⟩

theorem witness_WdBytePushesNextByte :
    (st rb).block.isOpen = false ∧
    ((st open1done).block.isOpen = true ∧ (st open1done).block.gidx = (st open1done).block.expect) ∧
    ((st open1).block.isOpen = true ∧ (st open1).block.gidx ≠ (st open1).block.expect ∧
      (st open1).block.phase = .p0) ∧
    ((st { open1full with phase := .p1 }).block.isOpen = true ∧
      (st { open1full with phase := .p1 }).block.gidx ≠ (st open1full).block.expect ∧
      (st { open1full with phase := .p1 }).block.phase = .p1) ∧
    ((st open1full).block.isOpen = true ∧ (st open1full).block.gidx ≠ (st open1full).block.expect ∧
      (st open1full).block.phase = .p2 ∧ (st open1full).block.gidx.toNat < (st open1full).block.wcap) ∧
    open1full.Inv ∧ open1full.gidx ≠ open1full.expect :=
  ⟨rfl, by decide, by decide, by decide, by decide, inv_open1full, by decide⟩

/-- The last group of the largest frame: `gidx` = 31, `expect` = `WCAP` = 32. -/
theorem witness_WdBytePushesNextByte_last_entry :
    ∃ b : Block, b.Inv ∧ b.isOpen = true ∧ b.gidx ≠ b.expect ∧ b.phase = .p2 ∧ b.gidx.toNat + 1 = b.wcap :=
  ⟨{ open1full with expect := 32#8, gidx := 31#8 }, by constructor <;> decide, by decide⟩

theorem witness_WdEndGivesVerdict :
    (st rb).block.isOpen = false ∧
    ((st open1full).block.isOpen = true ∧ (st open1full).block.phase ≠ .p0) ∧
    (open1.isOpen = true ∧ open1.phase = .p0 ∧ open1.gidx ≠ open1.expect) ∧
    ({ open1done with isOver := true } : Block).Inv ∧
    (open1done.isOpen = true ∧ open1done.isOver = false ∧ open1done.phase = .p0 ∧
      open1done.gidx = open1done.expect ∧ open1done.crcErr = false) ∧
    ∃ b : Block, b.isOpen = true ∧ b.isOver = false ∧ b.phase = .p0 ∧ b.gidx = b.expect ∧
      b.crcErr = true :=
  ⟨rfl, by decide, by decide, by constructor <;> decide, by decide,
    { open1done with crcErr := true }, by decide⟩

theorem witness_WdRdwReadsWord :
    (st rb).block.wvalid = false ∧
    ((st valid1).block.wvalid = true ∧ (st valid1).block.wcount.toNat ≤ (1#8).toNat) ∧
    ((0#8).toNat < (st valid1).block.wcount.toNat ∧ (st valid1).block.W[(0#8).toNat]? = some 0xBEEF#16) ∧
    valid1.Inv ∧ (open1full.Inv ∧ open1full.isOpen = true) ∧
    ({ rb with wdCode := .eLen } : Block).Inv :=
  ⟨rfl, by decide, by decide, inv_valid1, ⟨inv_open1full, rfl⟩, by constructor <;> decide⟩

theorem witness_MdConvConvertsTwentyWords :
    (st rb).block.wvalid = false ∧
    ((st valid1).block.wvalid = true ∧ (st valid1).block.wcount ≠ 20#8) ∧
    ((st valid20).block.wvalid = true ∧ (st valid20).block.wcount = 20#8 ∧
      20 ≤ (st valid20).block.wcap) ∧
    ∃ b : Block, b.Inv ∧ b.wvalid = true ∧ b.wcount = 20#8 ∧ b.wcap = 20 :=
  ⟨rfl, by decide, by decide, { valid20 with W := List.replicate 20 0#16 },
    by constructor <;> decide, by decide⟩

theorem witness_MdRdfReadsFloatRegister :
    (st rb).block.fvalid = false ∧ (st held).block.fvalid = true ∧ 10 ≤ (10#8).toNat ∧
    (9#8).toNat < 10 := by decide

theorem witness_ReservedOpsAnswerIllegal :
    ∃ t, exec (decode 0xD00#12) (st held) = .next t ∧ t.rsp = some ⟨.eIll, 0#32⟩ := ⟨_, rfl, rfl⟩

theorem witness_ArgIsIgnoredExactlyOnC0Rows :
    decode 0x300#12 = decode 0x377#12 ∧ decode 0x4AC#12 ≠ decode 0x4AD#12 ∧
    (decode 0x4AC#12).op.format = .ca := by decide

/-- A machine with one beat and then nothing presented. -/
def presenting (b : Block) (beat : Beat) : State := { st b with inputs := [Pins.ofBeat beat] }

theorem witness_StepRunsDecodedCommand :
    (presenting rb 0x514#12).inputs = Pins.ofBeat 0x514#12 :: [] ∧
    (Pins.ofBeat 0x514#12).rst = false ∧ (Pins.ofBeat 0x514#12).cmdValid = true ∧
    (presenting rb 0x514#12).resetSeen = true ∧ 0 < 4096 ∧ 4095 < 4096 := by decide

theorem witness_ResetEdgeResetsWhateverIsPresented :
    ∃ (s : State) (p : Pins), s.inputs = p :: [] ∧ p.rst = true ∧ p.cmdValid = true :=
  ⟨{ st valid1 with inputs := [⟨true, true, 0x5#4, 0x14#8⟩] }, _, rfl, rfl, rfl⟩

theorem witness_ReferenceTimingOfTheEdge :
    (∃ (s : State) (p : Pins), s.inputs = p :: [] ∧ p.rst = false ∧ p.cmdValid = false) ∧
    ∃ t, step (presenting rb 0x300#12) = .next t :=
  ⟨⟨{ st valid1 with inputs := [Pins.idle] }, _, rfl, rfl, rfl⟩, _, rfl⟩

theorem witness_NoCommandBeforeTheFirstReset :
    (Pins.ofBeat 0x000#12).rst = false ∧ (Pins.ofBeat 0x000#12).cmdValid = true := by decide

theorem witness_ResetLeavesTheElevenValues :
    rb = (State.resetFor 32).block ∧ ∃ b', { held with fvalid := false } = resetBlock b' :=
  ⟨rfl, held, by decide⟩

theorem witness_ResponsesAfterResetDoNotDependOnThePast :
    ∃ s s' : State, s ≠ s' ∧ s.block.wcap = s'.block.wcap ∧ 20 ≤ s.block.wcap ∧ s.block.wcap ≤ 255 ∧
      s.inputs = Pins.reset :: [Pins.ofBeat 0x800#12] ∧
      s'.inputs = Pins.reset :: [Pins.ofBeat 0x800#12] :=
  ⟨{ st valid1 with inputs := [Pins.reset, Pins.ofBeat 0x800#12] },
    { State.powerUp open1full with inputs := [Pins.reset, Pins.ofBeat 0x800#12] }, by decide⟩

theorem witness_InvariantHoldsAtReset :
    (∃ s : State, s.block.wcap = 20) ∧ ∃ s : State, s.block.wcap = 255 :=
  ⟨⟨State.resetFor 20, by decide⟩, State.resetFor 255, by decide +kernel⟩

theorem witness_EveryStepKeepsTheInvariant :
    (presenting open1full 0x692#12).Inv ∧ ∃ t, step (presenting open1full 0x692#12) = .next t := by
  refine ⟨⟨by decide, by decide, fun _ => inv_open1full, fun _ hr => ?_⟩, ?_⟩
  · simp [presenting, st, State.reset, State.resetFor] at hr
  · obtain ⟨t, ht, -, -⟩ := result_next (i := .wdByte 0x92#8) (b := open1full) rfl
    exact ⟨t, ht⟩

theorem witness_MachineNeverStopsAfterReset :
    (st open1full).Inv ∧ (st open1full).resetSeen = true ∧ (st open1full).block.Inv :=
  ⟨inv_st inv_open1full, rfl, inv_open1full⟩

/-- The frame of source example S4: twenty words of zero. -/
def zeroFrame : List Instr :=
  (List.replicate 20 [Instr.wdByte 0x00#8, Instr.wdByte 0x00#8, Instr.wdByte 0x81#8]).flatten

theorem zeroFrame_runs :
    endsWith (fun b => b.isOpen) (.wdStart 20#8 :: zeroFrame) State.reset = true := by decide +kernel

theorem zeroFrame_decodes : decodeWords (frameBytes zeroFrame) 20 =
    .words (Vector.replicate 20 0x0000#16).toList := by decide +kernel

theorem witness_ValidWordsComeFromOneGoodFrame :
    ∃ (s t : State) (cs : List Instr) (tr : List (Instr × Response)),
      execTrace cs (resetEvent s) = .next (t, tr) ∧ t.block.wvalid = true :=
  ⟨st held, _, [.wdStart 0#8, .wdEnd], _, rfl, rfl⟩

theorem witness_ValidMeasurementComesFromOneConversion :
    ∃ (s t : State) (cs : List Instr) (tr : List (Instr × Response)),
      execTrace cs (resetEvent s) = .next (t, tr) ∧ t.block.fvalid = true := by
  obtain ⟨t, tr, ht, hv⟩ := endsWith_next (P := fun b => b.fvalid)
    (cs := .wdStart 20#8 :: zeroFrame ++ [.wdEnd, .mdConv]) (s := resetEvent (st rb)) (by decide +kernel)
  exact ⟨_, t, _, tr, ht, hv⟩

theorem witness_EveryItemIsWrittenOnlyByItsWriters :
    (∃ t, exec (.wdByte 0x92#8) (st open1full) = .next t) ∧
    (∃ t, exec .mdConv (st valid20) = .next t) ∧ ∃ t, exec .stat (st held) = .next t :=
  ⟨(result_next (i := .wdByte 0x92#8) (b := open1full) rfl).imp fun _ h => h.1,
    (result_next (i := .mdConv) (b := valid20) rfl).imp fun _ h => h.1, _, rfl⟩

theorem witness_ReadsHaveNoSideEffects :
    isRead (.wdRdw 0#8) = true ∧
    (∀ c ∈ [Instr.stat, .reservedE],
      isRead c = true ∨ c = .reservedD ∨ c = .reservedE ∨ c = .reservedF) ∧
    ∃ t u v tr, exec (.wdRdw 0#8) (st valid1) = .next t ∧
      execTrace [.stat, .reservedE] t = .next (u, tr) ∧ exec (.wdRdw 0#8) u = .next v :=
  ⟨rfl, by decide, _, _, _, _, rfl, rfl, rfl⟩

theorem witness_ErrorsChangeOnlyWhatTheRuleSays :
    (∃ t, open1full.Inv ∧ exec .wdEnd (st open1full) = .next t ∧ t.rsp = some ⟨.eLen, 0#32⟩) ∧
    (∃ b t, Block.Inv b ∧ exec .wdEnd (st b) = .next t ∧ t.rsp = some ⟨.eCrc, 0#32⟩) ∧
    (∃ t, exec (.crcChk 0x00#8) (st rb) = .next t ∧ t.rsp = some ⟨.eCrc, 0#32⟩) ∧
    ∃ t, exec (.wdRdw 1#8) (st valid1) = .next t ∧ t.rsp = some ⟨.eIdx, 0#32⟩ :=
  ⟨⟨_, inv_open1full, rfl, rfl⟩,
    ⟨{ open1done with crcErr := true }, _, by constructor <;> decide, rfl, rfl⟩,
    ⟨_, rfl, rfl⟩, _, rfl, rfl⟩

theorem witness_CodesAreRaisedOnlyByTheirCommands :
    ∃ t, exec (.wdStart 33#8) (st rb) = .next t ∧ t.rsp = some ⟨.eCap, 0#32⟩ := ⟨_, rfl, rfl⟩

theorem witness_RefusalsComeExactlyWhenTheRuleSays :
    (∃ t, exec (.wdByte 0x11#8) (st rb) = .next t ∧ t.rsp = some ⟨.eSeq, 0#32⟩) ∧
    (∃ t, exec .mdConv (st valid1) = .next t ∧ t.rsp = some ⟨.eNores, 0#32⟩) ∧
    ∃ t, exec (.mdRdf 10#8) (st held) = .next t ∧ t.rsp = some ⟨.eIdx, 0#32⟩ :=
  ⟨⟨_, rfl, rfl⟩, ⟨_, rfl, rfl⟩, _, rfl, rfl⟩

theorem witness_FrameOpensAndClosesByTheTable :
    (∃ t r, exec (.wdStart 32#8) (st open1) = .next t ∧ t.rsp = some r ∧ (32#8).toNat ≤ open1.wcap) ∧
    (∃ t r, exec (.wdStart 33#8) (st open1) = .next t ∧ t.rsp = some r ∧ open1.wcap < (33#8).toNat) ∧
    (∃ t r, exec (.wdByte 0x00#8) (st open1) = .next t ∧ t.rsp = some r ∧ open1.isOpen = true) ∧
    (∃ t r, exec (.wdByte 0x00#8) (st rb) = .next t ∧ t.rsp = some r ∧ rb.isOpen = false) ∧
    (∃ t r, exec .wdEnd (st open1) = .next t ∧ t.rsp = some r ∧ open1.isOpen = true) ∧
    (∃ t r, exec .wdEnd (st rb) = .next t ∧ t.rsp = some r ∧ rb.isOpen = false) ∧
    ∃ t r, exec .nop (st open1) = .next t ∧ t.rsp = some r :=
  ⟨⟨_, _, rfl, rfl, by decide⟩, ⟨_, _, rfl, rfl, by decide⟩, ⟨_, _, rfl, rfl, rfl⟩,
    ⟨_, _, rfl, rfl, rfl⟩, ⟨_, _, rfl, rfl, rfl⟩, ⟨_, _, rfl, rfl, rfl⟩, _, _, rfl, rfl⟩

theorem witness_OpenIsSetAndClearedOnlyByFrameCommands :
    (∃ t, exec .wdEnd (st open1done) = .next t) ∧ (st rb).block.isOpen = false := ⟨⟨_, rfl⟩, rfl⟩

theorem witness_WvalidIsSetOnlyByGoodFrameEnd :
    (∃ t, exec .wdEnd (st open1done) = .next t ∧ t.rsp = some ⟨.ok, 1#32⟩) ∧
    ∃ t, (st open1full).block.Inv ∧ exec .wdEnd (st open1full) = .next t ∧
      t.rsp = some ⟨.eLen, 0#32⟩ :=
  ⟨⟨_, rfl, rfl⟩, _, inv_open1full, rfl, rfl⟩

theorem witness_FvalidIsSetOnlyByConversion :
    (∃ t r, exec .mdInv (st held) = .next t ∧ t.rsp = some r) ∧
    ∃ t, exec .mdConv (st valid20) = .next t ∧ t.rsp = some ⟨.ok, 0#32⟩ :=
  ⟨⟨_, _, rfl, rfl⟩, (result_next (i := .mdConv) (b := valid20) rfl).imp fun _ h => ⟨h.1, h.2.1⟩⟩

theorem witness_ErrorFlagsAreStickyAndHidden :
    ((Instr.wdStart 32#8).op = .wdStart ∧ (Instr.wdStart 32#8).arg.toNat ≤ (st open1).block.wcap ∧
      ∃ t, exec (.wdStart 32#8) (st open1) = .next t) ∧
    (¬((Instr.wdByte 0x93#8).op = .wdStart ∧ (Instr.wdByte 0x93#8).arg.toNat ≤ open1full.wcap)) ∧
    (∃ t, exec (.wdByte 0x93#8) (st open1full) = .next t) ∧
    Instr.stat ≠ .wdEnd ∧ ∃ t t', exec .stat (st open1) = .next t ∧
      exec .stat { st open1 with block := { (st open1).block with crcErr := true, isOver := true } } =
        .next t' :=
  ⟨⟨rfl, by decide, _, rfl⟩, by decide,
    (result_next (i := .wdByte 0x93#8) (b := open1full) rfl).imp fun _ h => h.1, by decide, _, _, rfl,
    rfl⟩

theorem witness_FrameRegistersHoldWhatTheRuleSays :
    (∃ t, exec (.wdStart 32#8) (st valid1) = .next t ∧ t.rsp = some ⟨.ok, 0#32⟩) ∧
    (∃ t, exec (.wdStart 33#8) (st valid1) = .next t ∧ t.rsp = some ⟨.eCap, 0#32⟩) ∧
    (∃ t, exec .wdEnd (st open1done) = .next t ∧ t.rsp = some ⟨.ok, 1#32⟩) ∧
    (∃ t, exec .wdEnd (st open1full) = .next t ∧ t.rsp = some ⟨.eLen, 0#32⟩) ∧
    (∃ t, exec .wdEnd (st valid1) = .next t ∧ t.rsp = some ⟨.eSeq, 0#32⟩) ∧
    ∃ t r, exec .crcInit (st valid1) = .next t ∧ t.rsp = some r :=
  ⟨⟨_, rfl, rfl⟩, ⟨_, rfl, rfl⟩, ⟨_, rfl, rfl⟩, ⟨_, rfl, rfl⟩, ⟨_, rfl, rfl⟩, _, _, rfl, rfl⟩

theorem witness_BytesOfAFrameAreAnsweredAlike :
    (st open1full).block.Inv ∧ (st open1full).block.isOpen = true := ⟨inv_open1full, rfl⟩

theorem witness_ChecksumEngineAndFramesDoNotInterfere : (st open1full).block.Inv := inv_open1full

theorem witness_CrcCommandsRefineChecksum :
    (st open1full).block.Inv ∧
    ∀ c ∈ [Instr.crcUpd 0xBE#8, .wdByte 0x92#8, .crcGet, .crcUpd 0xEF#8], c ≠ .crcInit :=
  ⟨inv_open1full, by decide⟩

theorem witness_DecodeOfEncodedWordsIsIdentity :
    (List.replicate 32 0xBEEF#16).length = (32#8).toNat ∧ (32#8).toNat ≤ (st held).block.wcap ∧
    (List.replicate 32 0xBEEF#16)[(31#8).toNat]? = some 0xBEEF#16 := by decide

theorem witness_NamedPayloadsAreLaidOutAsTheRuleSays :
    [0x3031#16, 0x3233#16][1]? = some 0x3233#16 := by decide

theorem witness_CorruptedFramesAreRejected :
    [0x00#8, 0x01#8].length % 3 ≠ 0 ∧
    decodeWords [0x00#8, 0x01#8, 0xB0#8] 1 = .words [0x0001#16] ∧
    [0x00#8, 0x01#8, 0xB0#8][3 * 0 + 2]? ≠ some 0xB1#8 ∧
    [0x00#8, 0x01#8, 0xB0#8][0]? = some 0x00#8 := by decide +kernel

/-- Each of the three verdicts is some frame's: R133 (a), (b) and (c). -/
theorem witness_FrameRunRefinesDecodeWords :
    (32#8).toNat ≤ (st held).block.wcap ∧
    (∀ c ∈ [Instr.wdByte 0x00#8, .crcInit, .wdByte 0x01#8, .mdRdf 0#8, .wdByte 0xB0#8],
      insideFrame c = true) ∧
    decodeWords (frameBytes [Instr.wdByte 0x00#8, .crcInit, .wdByte 0x01#8, .mdRdf 0#8,
      .wdByte 0xB0#8]) (1#8).toNat = .words [0x0001#16] ∧
    [0x0001#16][(0#8).toNat]? = some 0x0001#16 ∧
    decodeWords (frameBytes [Instr.wdByte 0x00#8, .stat]) (1#8).toNat = .lengthFailure ∧
    decodeWords (frameBytes [Instr.wdByte 0x00#8, .wdByte 0x01#8, .wdByte 0xB1#8]) (1#8).toNat =
      .checksumFailure := by decide +kernel

theorem witness_FramePseudoInstructionGivesVerdict :
    (32#8).toNat ≤ (st rb).block.wcap ∧
    ((st rb).block.wcap < (33#8).toNat ∧ (st rb).block.isOpen = false) ∧
    ((st open1).block.wcap < (33#8).toNat ∧ (st open1).block.isOpen = true) ∧
    ∃ u tr, execTrace ([0x00#8].map .wdByte ++ [.wdEnd]) (st open1) = .next (u, tr) :=
  ⟨by decide, by decide, by decide, _, _, rfl⟩

theorem witness_MeasurementByWordsAndBytes :
    decodeWords (frameBytes zeroFrame) 20 = .words (Vector.replicate 20 0x0000#16).toList :=
  zeroFrame_decodes

theorem witness_ConversionRefinesDecodeMeasurement :
    ∃ (s t u v : State) (cs ds : List Instr) (ws : Vector Word 20) (tr tr' : List (Instr × Response)),
      20 ≤ s.block.wcap ∧ (∀ c ∈ cs, insideFrame c = true) ∧
      decodeWords (frameBytes cs) 20 = .words ws.toList ∧
      execTrace (.wdStart 20#8 :: cs) s = .next (t, tr) ∧ exec .wdEnd t = .next u ∧
      execTrace ds u = .next (v, tr') ∧ ∀ p ∈ tr', p.1.op = .wdStart → p.2.code ≠ .ok := by
  obtain ⟨t, tr, ht, -⟩ := endsWith_next zeroFrame_runs
  have hu : ∃ u, exec .wdEnd t = .next u := by
    simp only [exec, execWdEnd]
    split
    · split <;> exact ⟨_, rfl⟩
    · exact ⟨_, rfl⟩
  obtain ⟨u, hu⟩ := hu
  exact ⟨State.reset, t, u, _, zeroFrame, [.stat], Vector.replicate 20 0x0000#16, tr, _, by decide,
    by decide +kernel, zeroFrame_decodes, ht, hu, rfl, by simp [Instr.op]⟩

/-- Commands across which a converted measurement survives. -/
theorem witness_ConversionRefinesDecodeMeasurement_after :
    ∃ (x : State) (tr : List (Instr × Response)),
      execTrace [.wdStart 1#8, .wdByte 0x00#8, .wdEnd, .mdConv] (st held) = .next (x, tr) ∧
      ∀ p ∈ tr, p.1 ≠ .mdInv ∧ (p.1 = .mdConv → p.2.code ≠ .ok) :=
  ⟨_, _, rfl, by decide⟩

theorem witness_EveryMeasurementPassesThroughUnchanged : 20 ≤ (st rb).block.wcap := by decide

theorem witness_EdgesRunTheAcceptedCommandsInOrder :
    ∃ (s : State) (es : List Pins), s.Inv ∧ s.resetSeen = true ∧ s.inputs = es ∧
      (∀ p ∈ es, p.rst = false) ∧ acceptedCommands es = [.stat, .nop] := by
  refine ⟨{ st open1 with inputs := [Pins.ofBeat 0xC00#12, Pins.idle, Pins.ofBeat 0x000#12] }, _,
    ⟨by decide, by decide, fun _ => inv_open1, fun _ hr => ?_⟩, rfl, rfl, by decide, by decide⟩
  simp [st, State.reset, State.resetFor] at hr

end Sys2Proof.Tests
end

section
/-! ### What completes: a command as its effect on the block, and runs of edges

`exec` and the relation `Effect` say the same; where R40 holds every command has an effect and keeps
R40. A run of edges without reset is then a run of commands, by induction over the edges. -/

namespace Sys2Proof.Machine

/-- The converse of `exec_next_effect`: each case that `Effect` lists does happen, whatever stands
around the block. -/
theorem Effect.exec_eq {s : State} {i : Instr} {b : Block} {c : Code} {d : BitVec 32}
    (h : Effect s.block i b c d) : exec i s = .next (s.after b c d) := by
  cases h with
  | nop | crcInit | crcUpd | crcGet | mdInv | stat | reservedD | reservedE | reservedF => rfl
  | crcChkOk _ h | crcChkBad _ h => simp [exec, execCrcChk, h]
  | wdStartCap _ h => simp [exec, execWdStart, h]
  | wdStart _ h => simp [exec, execWdStart, Nat.not_lt.mpr h]
  | wdByteSeq _ ho => simp [exec, execWdByte, ho]
  | wdByteOver _ ho hg => simp [exec, execWdByte, ho, hg]
  | wdByte0 _ ho hg hp | wdByte1 _ ho hg hp => simp [exec, execWdByte, ho, hg, hp]
  | wdByte2 _ ho hg hp hi => simp [exec, execWdByte, closeGroup, writeW_of_lt, ho, hg, hp, hi]
  | wdEndSeq ho => simp [exec, execWdEnd, ho]
  | wdEndLen ho hl => simp [exec, execWdEnd, frameVerdict, ho, hl]
  | wdEndCrc ho hl hc | wdEndOk ho hl hc =>
    simp only [exec, execWdEnd, frameVerdict, ho, hl, hc]; rfl
  | wdRdwNores _ hv => simp [exec, execWdRdw, hv]
  | wdRdwIdx _ hv hi => simp [exec, execWdRdw, hv, hi]
  | wdRdw _ _ hv hi hw => simp [exec, execWdRdw, readW, hv, hi, hw]
  | mdConvNores h => rcases h with h | h <;> simp [exec, execMdConv, h]
  | mdConv ws hv hc hw =>
    have hlen : 20 ≤ s.block.W.length := by simpa using congrArg List.length hw
    obtain ⟨ws', hsome, hws'⟩ := firstEntries_of_le hlen
    obtain rfl : ws' = ws := Vector.toList_inj.mp (hws'.trans hw.symm)
    simp [exec, execMdConv, hv, hc, hsome]
  | mdRdfNores _ hv => simp [exec, execMdRdf, hv]
  | mdRdfIdx _ hv hi => simp [exec, execMdRdf, readF_of_ge, hv, hi]
  | mdRdf _ hv hi => simp [exec, execMdRdf, readF_of_lt, hv, hi]

/-- A valid result lies inside W where the invariant holds (R40 b, c). -/
theorem Block.Inv.wcount_le {b : Block} (hb : b.Inv) (hv : b.wvalid = true) :
    b.wcount.toNat ≤ b.wcap := by
  obtain ⟨-, -, hcount⟩ := hb.valid_closed hv
  exact hcount ▸ hb.expect_le

/-- Where the invariant holds every command has an effect: no path asks W for an entry it lacks. -/
theorem Block.Inv.exists_effect {b : Block} (hb : b.Inv) (i : Instr) :
    ∃ b' c d, Effect b i b' c d := by
  cases i with
  | nop => exact ⟨_, _, _, .nop⟩
  | crcInit => exact ⟨_, _, _, .crcInit⟩
  | crcUpd x => exact ⟨_, _, _, .crcUpd x⟩
  | crcGet => exact ⟨_, _, _, .crcGet⟩
  | crcChk x =>
    by_cases h : b.crc = x
    · exact ⟨_, _, _, .crcChkOk x h⟩
    · exact ⟨_, _, _, .crcChkBad x h⟩
  | wdStart n =>
    by_cases h : n.toNat ≤ b.wcap
    · exact ⟨_, _, _, .wdStart n h⟩
    · exact ⟨_, _, _, .wdStartCap n (Nat.lt_of_not_le h)⟩
  | wdByte x =>
    cases ho : b.isOpen with
    | false => exact ⟨_, _, _, .wdByteSeq x ho⟩
    | true =>
      by_cases hg : b.gidx = b.expect
      · exact ⟨_, _, _, .wdByteOver x ho hg⟩
      · cases hp : b.phase with
        | p0 => exact ⟨_, _, _, .wdByte0 x ho hg hp⟩
        | p1 => exact ⟨_, _, _, .wdByte1 x ho hg hp⟩
        | p2 => exact ⟨_, _, _, .wdByte2 x ho hg hp (hb.gidx_lt hg).2⟩
  | wdEnd =>
    cases ho : b.isOpen with
    | false => exact ⟨_, _, _, .wdEndSeq ho⟩
    | true =>
      cases hl : frameLengthOk b with
      | false => exact ⟨_, _, _, .wdEndLen ho hl⟩
      | true =>
        cases hc : b.crcErr with
        | true => exact ⟨_, _, _, .wdEndCrc ho hl hc⟩
        | false => exact ⟨_, _, _, .wdEndOk ho hl hc⟩
  | wdRdw k =>
    cases hv : b.wvalid with
    | false => exact ⟨_, _, _, .wdRdwNores k hv⟩
    | true =>
      by_cases hi : k.toNat < b.wcount.toNat
      · have hw := List.getElem?_eq_getElem (Nat.lt_of_lt_of_le hi (hb.wcount_le hv))
        exact ⟨_, _, _, .wdRdw k _ hv hi hw⟩
      · exact ⟨_, _, _, .wdRdwIdx k hv (Nat.le_of_not_lt hi)⟩
  | mdConv =>
    cases hv : b.wvalid with
    | false => exact ⟨_, _, _, .mdConvNores (.inl hv)⟩
    | true =>
      by_cases hc : b.wcount = 20#8
      · obtain ⟨ws, -, hws⟩ := firstEntries_of_le hb.wcap_ge
        exact ⟨_, _, _, .mdConv ws hv hc hws⟩
      · exact ⟨_, _, _, .mdConvNores (.inr hc)⟩
  | mdRdf k =>
    cases hv : b.fvalid with
    | false => exact ⟨_, _, _, .mdRdfNores k hv⟩
    | true =>
      by_cases hi : k.toNat < 10
      · exact ⟨_, _, _, .mdRdf k hv hi⟩
      · exact ⟨_, _, _, .mdRdfIdx k hv (Nat.le_of_not_lt hi)⟩
  | mdInv => exact ⟨_, _, _, .mdInv⟩
  | stat => exact ⟨_, _, _, .stat⟩
  | reservedD => exact ⟨_, _, _, .reservedD⟩
  | reservedE => exact ⟨_, _, _, .reservedE⟩
  | reservedF => exact ⟨_, _, _, .reservedF⟩

/-- Every effect keeps R40 (a) to (f). -/
theorem Effect.keeps_inv {b b' : Block} {i : Instr} {c : Code} {d : BitVec 32}
    (h : Effect b i b' c d) (hb : b.Inv) : b'.Inv := by
  have hw := h.wcap_eq
  cases h with
  | nop | crcGet | crcChkOk | crcChkBad | wdStartCap | wdByteSeq | wdEndSeq | wdRdwNores | wdRdwIdx
  | wdRdw | mdConvNores | mdRdfNores | mdRdfIdx | mdRdf | stat | reservedD | reservedE
  | reservedF => exact hb
  | crcInit | crcUpd | wdByte0 | wdByte1 | mdConv | mdInv => exact { hb with }
  | wdStart n hn =>
    exact { hb with
      gidx_le := Nat.zero_le _
      expect_le := hn
      valid_closed := nofun
      invalid_empty := fun _ => rfl
      failed_closed := fun h => absurd rfl h
      over_full := nofun }
  | wdByteOver _ _ hg => exact { hb with over_full := fun _ => hg }
  | wdByte2 _ _ hg _ _ =>
    have hlt := (hb.gidx_lt hg).1
    exact { hb with
      wcap_ge := hb.wcap_ge.trans_eq hw.symm
      wcap_le := hw.trans_le hb.wcap_le
      gidx_le := succ_toNat_of_lt hlt ▸ hlt
      expect_le := hb.expect_le.trans_eq hw.symm
      over_full := fun h => absurd (hb.over_full h) hg }
  | wdEndLen ho _ | wdEndCrc ho _ _ =>
    have hv := (hb.open_clears ho).1
    exact { hb with
      valid_closed := fun h => absurd (hv.symm.trans h) nofun
      failed_closed := fun _ => ⟨rfl, hv⟩ }
  | wdEndOk _ _ _ =>
    exact { hb with
      valid_closed := fun _ => ⟨rfl, rfl, rfl⟩
      invalid_empty := nofun
      failed_closed := fun h => absurd rfl h }

/-! ### Edges -/

/-- An edge that accepts a command of a reset block does what the command does. -/
theorem clockEdge_of_effect {s : State} {p : Pins} {b : Block} {c : Code} {d : BitVec 32}
    (hs : s.resetSeen = true) (ha : p.accepted = true) (h : Effect s.block (decode p.beat) b c d) :
    clockEdge p s = .next (s.after b c d) :=
  (clockEdge_of_command ha hs).trans h.exec_eq

/-- A command accepted at the first listed edge has its effect there and the edge is used up. -/
theorem step_of_effect {s : State} {p : Pins} {es : List Pins} {b : Block} {c : Code}
    {d : BitVec 32} (hi : s.inputs = p :: es) (hs : s.resetSeen = true) (ha : p.accepted = true)
    (h : Effect s.block (decode p.beat) b c d) :
    step s = .next (State.after { s with inputs := es } b c d) :=
  (step_of_inputs hi).trans (clockEdge_of_effect (s := { s with inputs := es }) hs ha h)

/-- An edge that neither resets nor accepts a command is idle and is used up. -/
theorem step_of_no_command {s : State} {p : Pins} {es : List Pins} (hi : s.inputs = p :: es)
    (hr : p.rst = false) (ha : p.accepted = false) :
    step s = .next (idleEdge { s with inputs := es }) :=
  (step_of_inputs hi).trans (clockEdge_of_no_command hr ha)

/-- On a reset block that meets R40 an edge completes, whatever the pins show. -/
theorem clockEdge_completes {s : State} (hb : s.block.Inv) (hs : s.resetSeen = true) (p : Pins) :
    ∃ t, clockEdge p s = .next t := by
  cases hr : p.rst with
  | true => exact ⟨_, clockEdge_of_rst hr⟩
  | false =>
    cases ha : p.accepted with
    | true =>
      obtain ⟨b, c, d, h⟩ := hb.exists_effect (decode p.beat)
      exact ⟨_, clockEdge_of_effect hs ha h⟩
    | false => exact ⟨_, clockEdge_of_no_command hr ha⟩

/-- A run whose first step completes goes on from there. -/
theorem run_succ_of_next {s t : State} (h : step s = .next t) (k : Nat) :
    Host.Core.run core (k + 1) s = Host.Core.run core k t := by
  have h' : core.step s = .next t := h
  simp only [Host.Core.run, h']

theorem portTrace_succ_of_next {s t : State} (h : step s = .next t) (k : Nat) :
    portTrace (k + 1) s = t.rsp :: portTrace k t := by
  simp only [portTrace, h]

@[simp] theorem acceptedCommands_nil : acceptedCommands [] = [] := rfl

theorem acceptedCommands_cons_of_accepted {p : Pins} (ha : p.accepted = true) (es : List Pins) :
    acceptedCommands (p :: es) = decode p.beat :: acceptedCommands es := by
  simp [acceptedCommands, ha]

theorem acceptedCommands_cons_of_not_accepted {p : Pins} (ha : p.accepted = false)
    (es : List Pins) : acceptedCommands (p :: es) = acceptedCommands es := by
  simp [acceptedCommands, ha]

/-- What the edges `es` do from `s`, against what the commands accepted at them do from `v`: the
same block at the end, every edge used up, and the responses at the port those of the commands. -/
def EdgesMatchCommands (es : List Pins) (s v : State) : Prop :=
  ∃ t tr u, execTrace (acceptedCommands es) v = .next (t, tr) ∧
    Host.Core.run core es.length s = .next u ∧ u.block = t.block ∧ u.inputs = [] ∧
    (portTrace es.length s).filterMap id = tr.map Prod.snd

theorem edgesMatchCommands_nil {s v : State} (hi : s.inputs = []) (hv : v.block = s.block) :
    EdgesMatchCommands [] s v :=
  ⟨v, [], s, rfl, rfl, hv.symm, hi, rfl⟩

/-- An edge that leaves the response channel empty and accepts nothing adds nothing to either. -/
theorem EdgesMatchCommands.cons_of_no_command {p : Pins} {es : List Pins} {s s' v : State}
    (hstep : step s = .next s') (hrsp : s'.rsp = none) (ha : p.accepted = false)
    (h : EdgesMatchCommands es s' v) : EdgesMatchCommands (p :: es) s v := by
  obtain ⟨t, tr, u, htrace, hrun, hblock, hinputs, hport⟩ := h
  refine ⟨t, tr, u, ?_, ?_, hblock, hinputs, ?_⟩
  · rw [acceptedCommands_cons_of_not_accepted ha, htrace]
  · rw [List.length_cons, run_succ_of_next hstep, hrun]
  · rw [List.length_cons, portTrace_succ_of_next hstep, hrsp]
    simpa using hport

/-- An edge that accepts a command adds that command and its response on both sides. -/
theorem EdgesMatchCommands.cons_of_command {p : Pins} {es : List Pins} {s s' v v' : State}
    {r : Response} (hstep : step s = .next s') (hrsp : s'.rsp = some r) (ha : p.accepted = true)
    (hexec : exec (decode p.beat) v = .next v') (hrsp' : v'.rsp = some r)
    (h : EdgesMatchCommands es s' v') : EdgesMatchCommands (p :: es) s v := by
  obtain ⟨t, tr, u, htrace, hrun, hblock, hinputs, hport⟩ := h
  refine ⟨t, (decode p.beat, r) :: tr, u, ?_, ?_, hblock, hinputs, ?_⟩
  · rw [acceptedCommands_cons_of_accepted ha, execTrace_cons_of_next hexec hrsp', htrace]
  · rw [List.length_cons, run_succ_of_next hstep, hrun]
  · rw [List.length_cons, portTrace_succ_of_next hstep, hrsp]
    simpa using hport

/-- The simulation: edges without reset match their commands, from any two states that hold the same
block. The two differ in the pins to come and, after an idle edge, in the response channel, neither
of which a command reads. -/
theorem edgesMatchCommands_of_block_eq {es : List Pins} {s v : State} (hb : s.block.Inv)
    (hs : s.resetSeen = true) (hi : s.inputs = es) (hr : ∀ p ∈ es, p.rst = false)
    (hv : v.block = s.block) : EdgesMatchCommands es s v := by
  induction es generalizing s v with
  | nil => exact edgesMatchCommands_nil hi hv
  | cons p es ih =>
    obtain ⟨hrp, hr⟩ := List.forall_mem_cons.mp hr
    cases ha : p.accepted with
    | false => exact .cons_of_no_command (step_of_no_command hi hrp ha) rfl ha (ih hb hs rfl hr hv)
    | true =>
      obtain ⟨b, c, d, h⟩ := hb.exists_effect (decode p.beat)
      have hexec : exec (decode p.beat) v = .next (v.after b c d) := Effect.exec_eq (hv ▸ h)
      exact .cons_of_command (step_of_effect hi hs ha h) rfl ha hexec rfl
        (ih (h.keeps_inv hb) hs rfl hr rfl)

/-- Settles O59, by induction over the edges. -/
theorem edgesRunTheAcceptedCommandsInOrder : Obligations.EdgesRunTheAcceptedCommandsInOrder := by
  unfold Obligations.EdgesRunTheAcceptedCommandsInOrder
  intro s es hs hreset hi hr
  obtain ⟨t, tr, u, htrace, hrun, hblock, hinputs, hport⟩ :=
    edgesMatchCommands_of_block_eq (v := s) (hs.block hreset) hreset hi hr rfl
  exact ⟨t, tr, u, htrace, hrun, hblock, hinputs, execTrace_fst htrace, hport⟩

/-- Settles O27: where R40 holds every command has an effect, and every edge is a reset, a command
or idle. -/
theorem machineNeverStopsAfterReset : Obligations.MachineNeverStopsAfterReset := by
  unfold Obligations.MachineNeverStopsAfterReset
  constructor
  · intro s hs hreset
    exact clockEdge_completes (s := takePins s) (hs.block hreset) hreset (nextPins s)
  · intro i s hb
    obtain ⟨b, c, d, h⟩ := hb.exists_effect i
    exact ⟨s.after b c d, ⟨c, d⟩, h.exec_eq, rfl⟩

end Sys2Proof.Machine
end

section
/-! ### The invariant of R40 at reset and along every step

The reset event establishes R40 on any block of legal `WCAP`; an edge resets, runs a command or does
nothing, and `Effect.keeps_inv` is the case of a command. -/

namespace Sys2Proof.Machine

/-- R41 read as R40: the reset values meet every clause, and W keeps its length. -/
theorem resetBlock_inv {b : Block} (hge : Config.wcapMin ≤ b.wcap) (hle : b.wcap ≤ Config.wcapMax) :
    (resetBlock b).Inv where
  wcap_ge := hge
  wcap_le := hle
  gidx_le := Nat.le_refl _
  expect_le := Nat.zero_le _
  valid_closed := nofun
  invalid_empty := fun _ => rfl
  failed_closed := fun h => absurd rfl h
  over_full := nofun

theorem resetEvent_inv {s : State} (hge : Config.wcapMin ≤ s.block.wcap)
    (hle : s.block.wcap ≤ Config.wcapMax) : (resetEvent s).Inv where
  wcap_ge := hge
  wcap_le := hle
  block := fun _ => resetBlock_inv hge hle
  rsp_data := nofun

/-- STATUS reads 0 after the reset event (R38, R41). -/
theorem statusWord_resetBlock (b : Block) : statusWord (resetBlock b) = 0#32 := by
  simp only [statusWord, resetBlock_expect, resetBlock_wcount, resetBlock_wdCode, resetBlock_fvalid,
    resetBlock_wvalid, resetBlock_isOpen]
  decide

/-- The block of `State.resetFor` holds the reset values, so the reset event leaves it as it is. -/
theorem resetBlock_reset (n : Nat) : resetBlock (Block.reset n) = Block.reset n := rfl

theorem wcap_reset (n : Nat) : (Block.reset n).wcap = n := List.length_replicate

theorem resetFor_inv {n : Nat} (hge : Config.wcapMin ≤ n) (hle : n ≤ Config.wcapMax) :
    (State.resetFor n).Inv := by
  rw [← wcap_reset n] at hge hle
  exact ⟨hge, hle, fun _ => resetBlock_inv (b := Block.reset n) hge hle, nofun⟩

/-- An error response carries no data (R73). -/
theorem Effect.data_of_error {b b' : Block} {i : Instr} {c : Code} {d : BitVec 32}
    (h : Effect b i b' c d) (hc : c ≠ .ok) : d = 0#32 := by
  cases h with
  | crcGet | wdEndOk | wdRdw | mdRdf | stat => exact absurd rfl hc
  | _ => rfl

/-- A command that completes keeps the invariant of the machine, once the block has been reset. -/
theorem Effect.keeps_state_inv {s : State} {b : Block} {i : Instr} {c : Code} {d : BitVec 32}
    (h : Effect s.block i b c d) (hs : s.Inv) (hreset : s.resetSeen = true) :
    (s.after b c d).Inv where
  wcap_ge := hs.wcap_ge.trans_eq h.wcap_eq.symm
  wcap_le := h.wcap_eq.trans_le hs.wcap_le
  block := fun _ => h.keeps_inv (hs.block hreset)
  rsp_data := by
    rintro _ ⟨⟩ hc
    exact h.data_of_error hc

/-- What an edge that completes was: a reset, a command of a reset block, or idle. -/
theorem clockEdge_cases {p : Pins} {s t : State} (h : clockEdge p s = .next t) :
    t = resetEvent s ∨
    (s.resetSeen = true ∧ ∃ b c d, Effect s.block (decode p.beat) b c d ∧ t = s.after b c d) ∨
    t = idleEdge s := by
  cases hr : p.rst with
  | true =>
    rw [clockEdge_of_rst hr] at h
    exact .inl (next_inj h)
  | false =>
    cases ha : p.accepted with
    | false =>
      rw [clockEdge_of_no_command hr ha] at h
      exact .inr (.inr (next_inj h))
    | true =>
      cases hs : s.resetSeen with
      | false => simp [clockEdge_of_early_command ha hs] at h
      | true =>
        rw [clockEdge_of_command ha hs] at h
        exact .inr (.inl ⟨rfl, exec_next_effect h⟩)

theorem clockEdge_keeps_inv {p : Pins} {s t : State} (hs : s.Inv) (h : clockEdge p s = .next t) :
    t.Inv ∧ t.block.wcap = s.block.wcap := by
  rcases clockEdge_cases h with rfl | ⟨hreset, b, c, d, he, rfl⟩ | rfl
  · exact ⟨resetEvent_inv hs.wcap_ge hs.wcap_le, rfl⟩
  · exact ⟨he.keeps_state_inv hs hreset, he.wcap_eq⟩
  · exact ⟨{ hs with rsp_data := nofun }, rfl⟩

/-- Settles O26: taking the pins touches nothing the invariant speaks of, and every edge keeps it. -/
theorem everyStepKeepsTheInvariant : Obligations.EveryStepKeepsTheInvariant := by
  unfold Obligations.EveryStepKeepsTheInvariant
  intro s t hs h
  exact clockEdge_keeps_inv (s := takePins s) { hs with } h

/-- Settles O25: `State.reset` holds the reset values at the reference capacity, and the reset event
gives them to any block. -/
theorem invariantHoldsAtReset : Obligations.InvariantHoldsAtReset := by
  unfold Obligations.InvariantHoldsAtReset
  exact ⟨resetFor_inv (by decide) (by decide),
    fun s hge hle => ⟨resetEvent_inv hge hle, resetBlock_inv hge hle⟩⟩

/-- Settles O23: each of the twelve values is read off the reset block. -/
theorem resetLeavesTheElevenValues : Obligations.ResetLeavesTheElevenValues := by
  unfold Obligations.ResetLeavesTheElevenValues
  refine ⟨?_, fun b => ⟨resetBlock_b0 b, resetBlock_b1 b, resetBlock_W b, resetBlock_F b⟩,
    fun n => ⟨wcap_reset n, rfl⟩⟩
  intro n b hb
  obtain ⟨b', rfl⟩ : ∃ b', b = resetBlock b' :=
    hb.elim (fun h => ⟨b, h ▸ (resetBlock_reset n).symm⟩) id
  exact ⟨rfl, rfl, rfl, rfl, rfl, rfl, rfl, rfl, rfl, rfl, rfl, statusWord_resetBlock b'⟩

end Sys2Proof.Machine
end

section
/-! ### Who writes what: the "Written by" column of R20, item by item

One lemma per item says which effects touch it and what they put there. The obligations on single
items are these lemmas, read at the state a command leaves. -/

namespace Sys2Proof.Machine

variable {b b' : Block} {i : Instr} {c : Code} {d : BitVec 32}

/-! #### What a command leaves alone -/

theorem Effect.crc_eq (h : Effect b i b' c d) (hinit : i.op ≠ .crcInit) (hupd : i.op ≠ .crcUpd) :
    b'.crc = b.crc := by
  cases h with
  | crcInit => exact absurd rfl hinit
  | crcUpd => exact absurd rfl hupd
  | _ => rfl

theorem Effect.b0_eq (h : Effect b i b' c d) (hw : ¬(i.op = .wdByte ∧ b.phase = .p0)) :
    b'.b0 = b.b0 := by
  cases h with
  | wdByte0 _ _ _ hp => exact absurd ⟨rfl, hp⟩ hw
  | _ => rfl

theorem Effect.b1_eq (h : Effect b i b' c d) (hw : ¬(i.op = .wdByte ∧ b.phase = .p1)) :
    b'.b1 = b.b1 := by
  cases h with
  | wdByte1 _ _ _ hp => exact absurd ⟨rfl, hp⟩ hw
  | _ => rfl

/-- The counters and flags of the frame are written by WD.START and WD.BYTE. -/
theorem Effect.frame_counters_eq (h : Effect b i b' c d) (hstart : i.op ≠ .wdStart)
    (hbyte : i.op ≠ .wdByte) :
    b'.phase = b.phase ∧ b'.gidx = b.gidx ∧ b'.crcErr = b.crcErr ∧ b'.isOver = b.isOver := by
  cases h with
  | wdStart => exact absurd rfl hstart
  | wdByteOver | wdByte0 | wdByte1 | wdByte2 => exact absurd rfl hbyte
  | _ => exact ⟨rfl, rfl, rfl, rfl⟩

/-- What tells whether a frame is open and how the last one ended is written by WD.START and
WD.END. -/
theorem Effect.frame_result_eq (h : Effect b i b' c d) (hstart : i.op ≠ .wdStart)
    (hend : i.op ≠ .wdEnd) :
    b'.isOpen = b.isOpen ∧ b'.wcount = b.wcount ∧ b'.wvalid = b.wvalid ∧ b'.wdCode = b.wdCode := by
  cases h with
  | wdStart => exact absurd rfl hstart
  | wdEndLen | wdEndCrc | wdEndOk => exact absurd rfl hend
  | _ => exact ⟨rfl, rfl, rfl, rfl⟩

theorem Effect.expect_eq (h : Effect b i b' c d) (hstart : i.op ≠ .wdStart) :
    b'.expect = b.expect := by
  cases h with
  | wdStart => exact absurd rfl hstart
  | _ => rfl

/-- W is written at the entry `gidx`, by the third byte of a group of an open frame (R23). -/
theorem Effect.W_getElem?_eq (h : Effect b i b' c d) (k : Nat)
    (hw : ¬(i.op = .wdByte ∧ b.isOpen = true ∧ b.gidx ≠ b.expect ∧ b.phase = .p2 ∧
      k = b.gidx.toNat)) : b'.W[k]? = b.W[k]? := by
  cases h with
  | wdByte2 _ ho hg hp _ =>
    have hk : b.gidx.toNat ≠ k := fun e => hw ⟨rfl, ho, hg, hp, e.symm⟩
    exact List.getElem?_set_ne hk
  | _ => rfl

theorem Effect.F_eq (h : Effect b i b' c d) (hconv : i.op ≠ .mdConv) : b'.F = b.F := by
  cases h with
  | mdConv => exact absurd rfl hconv
  | _ => rfl

theorem Effect.fvalid_eq (h : Effect b i b' c d) (hconv : i.op ≠ .mdConv) (hinv : i.op ≠ .mdInv) :
    b'.fvalid = b.fvalid := by
  cases h with
  | mdConv => exact absurd rfl hconv
  | mdInv => exact absurd rfl hinv
  | _ => rfl

/-- Settles O30: the table of R20, one lemma per item. -/
theorem everyItemIsWrittenOnlyByItsWriters : Obligations.EveryItemIsWrittenOnlyByItsWriters := by
  unfold Obligations.EveryItemIsWrittenOnlyByItsWriters
  intro i s t h
  obtain ⟨b, c, d, he, rfl⟩ := exec_next_effect h
  exact ⟨he.crc_eq, he.b0_eq, he.b1_eq, he.frame_counters_eq, he.frame_result_eq, he.expect_eq,
    he.W_getElem?_eq, he.F_eq, he.fvalid_eq, he.wcap_eq, rfl, rfl⟩

/-! #### What the writers put there -/

/-- R32: `open` after a command. -/
theorem Effect.isOpen_iff (h : Effect b i b' c d) :
    b'.isOpen = true ↔
      (i.op = .wdStart ∧ i.arg.toNat ≤ b.wcap) ∨ (b.isOpen = true ∧ i ≠ .wdEnd) := by
  cases h with
  | wdStart n hn => simp [Instr.op, Instr.arg, hn]
  | wdStartCap n hn => simp [Instr.op, Instr.arg, Nat.not_le.mpr hn]
  | wdEndSeq ho => simp [Instr.op, ho]
  | _ => simp [Instr.op]

/-- R33: `wvalid` after a command. -/
theorem Effect.wvalid_iff (h : Effect b i b' c d) :
    b'.wvalid = true ↔
      (i = .wdEnd ∧ c = .ok) ∨ (b.wvalid = true ∧ ¬(i.op = .wdStart ∧ c = .ok)) := by
  cases h <;> simp [Instr.op]

/-- A WD.END that fails leaves `wvalid` as it is (R33). -/
theorem Effect.wvalid_of_failed_end (h : Effect b .wdEnd b' c d) (hc : c ≠ .ok) :
    b'.wvalid = b.wvalid := by
  cases h with
  | wdEndOk => exact absurd rfl hc
  | _ => rfl

/-- A verdict of WD.END comes only from an open frame (R131). -/
theorem Effect.isOpen_of_end_verdict (h : Effect b .wdEnd b' c d) (hc : c ≠ .eSeq) :
    b.isOpen = true := by
  cases h with
  | wdEndSeq => exact absurd rfl hc
  | wdEndLen ho | wdEndCrc ho | wdEndOk ho => exact ho

/-- R34: `fvalid` after a command. -/
theorem Effect.fvalid_iff (h : Effect b i b' c d) :
    b'.fvalid = true ↔ (i = .mdConv ∧ c = .ok) ∨ (b.fvalid = true ∧ i ≠ .mdInv) := by
  cases h <;> simp

/-- R35: an accepted WD.START clears both error flags. -/
theorem Effect.flags_of_accepted_start (h : Effect b i b' c d)
    (hi : i.op = .wdStart ∧ i.arg.toNat ≤ b.wcap) : b'.crcErr = false ∧ b'.isOver = false := by
  cases h with
  | wdStart => exact ⟨rfl, rfl⟩
  | wdStartCap n hn => exact absurd hi.2 (Nat.not_le.mpr hn)
  | _ => exact absurd hi.1 nofun

/-- R35: `crc_err` after any other command. -/
theorem Effect.crcErr_iff (h : Effect b i b' c d)
    (hi : ¬(i.op = .wdStart ∧ i.arg.toNat ≤ b.wcap)) :
    b'.crcErr = true ↔ b.crcErr = true ∨
      (i.op = .wdByte ∧ b.isOpen = true ∧ b.gidx ≠ b.expect ∧ b.phase = .p2 ∧
        i.arg ≠ crc8 [b.b0, b.b1]) := by
  cases h with
  | wdStart n hn => exact absurd ⟨rfl, hn⟩ hi
  | wdByteSeq _ ho => simp [ho]
  | wdByteOver _ _ hg => simp [hg]
  | wdByte0 _ _ _ hp | wdByte1 _ _ _ hp => simp [hp]
  | wdByte2 x ho hg hp _ => simp [Instr.op, Instr.arg, groupPasses, ho, hg, hp]
  | _ => simp [Instr.op]

/-- R35: `over` after any other command. -/
theorem Effect.isOver_iff (h : Effect b i b' c d)
    (hi : ¬(i.op = .wdStart ∧ i.arg.toNat ≤ b.wcap)) :
    b'.isOver = true ↔ b.isOver = true ∨
      (i.op = .wdByte ∧ b.isOpen = true ∧ b.gidx = b.expect) := by
  cases h with
  | wdStart n hn => exact absurd ⟨rfl, hn⟩ hi
  | wdByteSeq _ ho => simp [ho]
  | wdByteOver _ ho hg => simp [Instr.op, ho, hg]
  | wdByte0 _ _ hg _ | wdByte1 _ _ hg _ | wdByte2 _ _ hg _ _ => simp [hg]
  | _ => simp [Instr.op]

/-- No test but WD.END's looks at the two flags: with other flags the same path is taken and the
response is the same (R35). -/
theorem Effect.response_of_other_flags (h : Effect b i b' c d) (hend : i ≠ .wdEnd) (e o : Bool) :
    ∃ b2, Effect { b with crcErr := e, isOver := o } i b2 c d := by
  cases h with
  | wdEndSeq | wdEndLen | wdEndCrc | wdEndOk => exact absurd rfl hend
  | wdByteOver x ho hg => exact ⟨_, .wdByteOver x ho hg⟩
  | wdByte0 x ho hg hp => exact ⟨_, .wdByte0 x ho hg hp⟩
  | wdByte1 x ho hg hp => exact ⟨_, .wdByte1 x ho hg hp⟩
  | wdByte2 x ho hg hp hi => exact ⟨_, .wdByte2 x ho hg hp hi⟩
  | mdConv ws hv hc hw => exact ⟨_, .mdConv ws hv hc hw⟩
  | _ => exact ⟨_, by constructor <;> assumption⟩

/-- R36, R37: what an accepted WD.START puts into the three registers. -/
theorem Effect.registers_of_accepted_start (h : Effect b i b' c d) (hi : i.op = .wdStart)
    (hc : c = .ok) :
    b'.expect = i.arg ∧ i.arg.toNat ≤ b'.wcap ∧ b'.wcount = 0#8 ∧ b'.wdCode = .ok := by
  cases h with
  | wdStart n hn => exact ⟨rfl, hn, rfl, rfl⟩
  | wdStartCap => exact absurd hc nofun
  | _ => exact absurd hi nofun

/-- A refused WD.START changes nothing (R129). -/
theorem Effect.block_of_refused_start (h : Effect b i b' c d) (hi : i.op = .wdStart)
    (hc : c ≠ .ok) : b' = b := by
  cases h with
  | wdStart => exact absurd rfl hc
  | wdStartCap => rfl
  | _ => exact absurd hi nofun

/-- R36: `wcount` after a WD.END. -/
theorem Effect.wcount_of_end (h : Effect b .wdEnd b' c d) :
    b'.wcount = if c = .ok then b.expect else b.wcount := by
  cases h <;> rfl

/-- R37: `wd_code` after a WD.END. -/
theorem Effect.wdCode_of_end (h : Effect b .wdEnd b' c d) (hc : c ≠ .eSeq) :
    b'.wdCode.toCode = c := by
  cases h with
  | wdEndSeq => exact absurd rfl hc
  | wdEndLen | wdEndCrc | wdEndOk => rfl

/-- A WD.END outside a frame changes nothing (R131). -/
theorem Effect.block_of_refused_end (h : Effect b .wdEnd b' c d) (hc : c = .eSeq) : b' = b := by
  cases h with
  | wdEndSeq => rfl
  | wdEndLen | wdEndCrc | wdEndOk => exact absurd hc nofun

theorem Instr.eq_wdEnd_of_op {i : Instr} (h : i.op = .wdEnd) : i = .wdEnd := by
  cases i with
  | wdEnd => rfl
  | _ => exact absurd h nofun

/-- Settles O36. -/
theorem openIsSetAndClearedOnlyByFrameCommands :
    Obligations.OpenIsSetAndClearedOnlyByFrameCommands := by
  unfold Obligations.OpenIsSetAndClearedOnlyByFrameCommands
  refine ⟨fun i s t h => ?_, fun _ => rfl, fun s x ho => ?_⟩
  · obtain ⟨b, c, d, he, rfl⟩ := exec_next_effect h
    exact he.isOpen_iff
  · exact ⟨(Effect.wdByteSeq x ho).exec_eq, (Effect.wdEndSeq ho).exec_eq⟩

/-- Settles O37: a failed WD.END closed a frame, and inside a frame no result is valid. -/
theorem wvalidIsSetOnlyByGoodFrameEnd : Obligations.WvalidIsSetOnlyByGoodFrameEnd := by
  unfold Obligations.WvalidIsSetOnlyByGoodFrameEnd
  refine ⟨fun i s t r h hr => ?_, fun _ => rfl⟩
  obtain ⟨b, c, d, he, rfl⟩ := exec_next_effect h
  obtain rfl : ⟨c, d⟩ = r := Option.some.inj hr
  refine ⟨he.wvalid_iff, ?_⟩
  rintro hb rfl hfail
  have hseq : c ≠ .eSeq := by rintro rfl; simp at hfail
  have hok : c ≠ .ok := by rintro rfl; simp at hfail
  have hv := (hb.open_clears (he.isOpen_of_end_verdict hseq)).1
  exact ⟨hv, (he.wvalid_of_failed_end hok).trans hv⟩

/-- Settles O38. -/
theorem fvalidIsSetOnlyByConversion : Obligations.FvalidIsSetOnlyByConversion := by
  unfold Obligations.FvalidIsSetOnlyByConversion
  refine ⟨fun i s t r h hr => ?_, fun _ => rfl⟩
  obtain ⟨b, c, d, he, rfl⟩ := exec_next_effect h
  obtain rfl : ⟨c, d⟩ = r := Option.some.inj hr
  exact he.fvalid_iff

/-- Settles O39: the flags by cases of the command; their independence because the same path is open
to any flags, and a command has one response. -/
theorem errorFlagsAreStickyAndHidden : Obligations.ErrorFlagsAreStickyAndHidden := by
  unfold Obligations.ErrorFlagsAreStickyAndHidden
  refine ⟨fun i s t h => ?_, fun _ => ⟨rfl, rfl⟩, fun i s t t' e o hi h h' => ?_⟩
  · obtain ⟨b, c, d, he, rfl⟩ := exec_next_effect h
    exact ⟨fun hop hn => he.flags_of_accepted_start ⟨hop, hn⟩,
      fun hi => ⟨he.crcErr_iff hi, he.isOver_iff hi⟩⟩
  · obtain ⟨b, c, d, he, rfl⟩ := exec_next_effect h
    obtain ⟨b', c', d', he', rfl⟩ := exec_next_effect h'
    obtain ⟨b2, he2⟩ := he.response_of_other_flags hi e o
    obtain ⟨-, rfl, rfl⟩ := he'.deterministic he2
    rfl

/-- Settles O40. -/
theorem frameRegistersHoldWhatTheRuleSays : Obligations.FrameRegistersHoldWhatTheRuleSays := by
  unfold Obligations.FrameRegistersHoldWhatTheRuleSays
  refine ⟨fun i s t r h hr => ?_, fun _ => rfl⟩
  obtain ⟨b, c, d, he, rfl⟩ := exec_next_effect h
  obtain rfl : ⟨c, d⟩ = r := Option.some.inj hr
  refine ⟨he.registers_of_accepted_start, ?refusedStart, he.expect_eq, ?endOk, ?endCode, ?endCount,
    ?refusedEnd, ?others⟩
  case refusedStart =>
    intro hop hc
    obtain rfl := he.block_of_refused_start hop hc
    exact ⟨rfl, rfl, rfl⟩
  case endOk =>
    rintro rfl hc
    exact he.wcount_of_end.trans (if_pos hc)
  case endCode =>
    rintro rfl hc
    exact he.wdCode_of_end hc
  case endCount =>
    rintro rfl hc
    exact he.wcount_of_end.trans (if_neg hc)
  case refusedEnd =>
    rintro rfl hc
    exact congrArg Block.wdCode (he.block_of_refused_end hc)
  case others =>
    intro hstart hend
    obtain ⟨-, hcount, -, hcode⟩ := he.frame_result_eq hstart (hend ∘ Instr.eq_wdEnd_of_op)
    exact ⟨hcount, hcode⟩

end Sys2Proof.Machine
end

section
/-! ### The history of a run: where a valid result comes from (R40 g, h)

Both clauses follow from a predicate on the commands so far and the block they left, which holds at
reset and which every effect keeps. For the words it says of an open frame which bytes it has
received: `Block.Received` is the simulation relation between the block and `decode_words`. -/

namespace Sys2Proof.Machine

/-- The induction over a run: what holds of no commands at `s`, and is kept by every command that
completes, holds at the end of every run from `s`. -/
theorem execTrace_history {P : List Instr → Block → Prop} {s : State} (hnil : P [] s.block)
    (hstep : ∀ {cs u tr i b c d}, execTrace cs s = .next (u, tr) → P cs u.block →
      Effect u.block i b c d → P (cs ++ [i]) b)
    {cs : List Instr} {t : State} {tr : List (Instr × Response)}
    (h : execTrace cs s = .next (t, tr)) : P cs t.block := by
  induction cs using List.reverseRecOn generalizing t tr with
  | nil =>
    obtain ⟨rfl, -⟩ : s = t ∧ [] = tr := by simpa using h
    exact hnil
  | append_singleton cs i ih =>
    obtain ⟨u, tr1, tr2, hu, hi, -⟩ := execTrace_append_eq_next.mp h
    obtain ⟨v, r, tr3, hexec, -, hv, -⟩ := execTrace_cons_eq_next.mp hi
    obtain ⟨rfl, -⟩ : v = t ∧ [] = tr3 := by simpa using hv
    obtain ⟨b, c, d, he, rfl⟩ := exec_next_effect hexec
    exact hstep hu (ih hu) he

/-- No command of a run changes `WCAP`. -/
theorem execTrace_wcap {cs : List Instr} {s t : State} {tr : List (Instr × Response)}
    (h : execTrace cs s = .next (t, tr)) : t.block.wcap = s.block.wcap :=
  execTrace_history (P := fun _ b => b.wcap = s.block.wcap) rfl
    (fun _ hu he => he.wcap_eq.trans hu) h

/-! #### Bytes and their words -/

theorem frameBytes_append (cs ds : List Instr) :
    frameBytes (cs ++ ds) = frameBytes cs ++ frameBytes ds := List.filterMap_append

/-- Whole groups followed by more bytes decode to the words of both (R122). -/
theorem groupWords_append {gs : List Byte} (hgs : 3 ∣ gs.length) (ys : List Byte) :
    groupWords (gs ++ ys) =
      (groupWords gs).bind fun ws => (groupWords ys).map (ws ++ ·) := by
  induction gs using groupWords.induct with
  | case1 g0 g1 c rest hp ih =>
    have hrest : 3 ∣ rest.length := by simp at hgs; omega
    simp only [List.cons_append, groupWords, hp, if_true, ih hrest]
    cases groupWords rest <;> cases groupWords ys <;> simp
  | case2 g0 g1 c rest hp => simp [groupWords, hp]
  | case3 => cases h : groupWords ys <;> simp [groupWords, h]
  | case4 | case5 => simp at hgs

/-! #### What an open frame has received -/

/-- The data bytes of the group being received (R29, R30). -/
def Block.partialGroup (b : Block) : List Byte :=
  match b.phase with
  | .p0 => []
  | .p1 => [b.b0]
  | .p2 => [b.b0, b.b1]

/-- `gs` are the groups counted so far: W holds their words, unless one failed its check. -/
def Block.CountsGroups (b : Block) (gs : List Byte) : Prop :=
  gs.length = 3 * b.gidx.toNat ∧
    groupWords gs = if b.crcErr then none else some (b.W.take b.gidx.toNat)

/-- The block has received the bytes `xs` of its frame: while not one too many came, they are the
groups counted and the partial group. -/
def Block.Received (b : Block) (xs : List Byte) : Prop :=
  b.gidx.toNat ≤ b.expect.toNat ∧
    (b.isOver = false → ∃ gs, xs = gs ++ b.partialGroup ∧ b.CountsGroups gs)

/-- The third byte of a group adds the group to those counted (R130). -/
theorem Block.CountsGroups.close {b : Block} {gs : List Byte} (h : b.CountsGroups gs)
    (hexp : b.gidx.toNat < b.expect.toNat) (hcap : b.gidx.toNat < b.wcap) (x : Byte) :
    Block.CountsGroups { b with
      W := b.W.set b.gidx.toNat (b.b0 ++ b.b1)
      crcErr := b.crcErr || !groupPasses b.b0 b.b1 x
      gidx := b.gidx + 1#8
      phase := .p0 } (gs ++ [b.b0, b.b1, x]) := by
  obtain ⟨hlen, hwords⟩ := h
  have hsucc := succ_toNat_of_lt hexp
  have htake : (b.W.set b.gidx.toNat (b.b0 ++ b.b1)).take (b.gidx.toNat + 1) =
      b.W.take b.gidx.toNat ++ [b.b0 ++ b.b1] := by
    rw [List.take_succ_eq_append_getElem (by simpa using hcap)]
    simp [List.take_set_of_le]
  refine ⟨by simp [hsucc, hlen, Nat.mul_succ], ?_⟩
  simp only [groupWords_append ⟨_, hlen⟩, hwords, hsucc, htake, groupWords]
  cases b.crcErr <;> cases groupPasses b.b0 b.b1 x <;> simp

/-- Every byte pushed into an open frame is received (R130). -/
theorem Effect.received {b b' : Block} {x : Byte} {c : Code} {d : BitVec 32} {xs : List Byte}
    (h : Effect b (.wdByte x) b' c d) (ho : b.isOpen = true) (hr : b.Received xs) :
    b'.Received (xs ++ [x]) := by
  obtain ⟨hle, hbytes⟩ := hr
  cases h with
  | wdByteSeq _ hclosed => simp [hclosed] at ho
  | wdByteOver => exact ⟨hle, nofun⟩
  | wdByte0 _ _ _ hp | wdByte1 _ _ _ hp =>
    refine ⟨hle, fun hover => ?_⟩
    obtain ⟨gs, rfl, hgs⟩ := hbytes hover
    exact ⟨gs, by simp [Block.partialGroup, hp], hgs⟩
  | wdByte2 _ _ hg hp hcap =>
    have hexp : b.gidx.toNat < b.expect.toNat :=
      Nat.lt_of_le_of_ne hle fun e => hg (BitVec.eq_of_toNat_eq e)
    refine ⟨succ_toNat_of_lt hexp ▸ hexp, fun hover => ?_⟩
    obtain ⟨gs, rfl, hgs⟩ := hbytes hover
    exact ⟨gs ++ [b.b0, b.b1, x], by simp [Block.partialGroup, hp], hgs.close hexp hcap x⟩

/-- A frame of the right length with no failed group decodes to the first words of W (R131, R133). -/
theorem Block.Received.decodeWords_eq {b : Block} {xs : List Byte} (hr : b.Received xs)
    (hl : frameLengthOk b = true) (hc : b.crcErr = false) :
    decodeWords xs b.expect.toNat = .words (b.W.take b.expect.toNat) := by
  obtain ⟨hover, hp, hg⟩ := (frameLengthOk_iff b).mp hl
  obtain ⟨gs, rfl, hlen, hwords⟩ := hr.2 hover
  rw [hg] at hlen hwords
  simp [decodeWords, Block.partialGroup, hp, hc, hlen, hwords]

/-! #### The frames of a run -/

/-- Every WD.START of the list asks for more than `wcap` words, so it is refused (R129). -/
def StartsRefused (wcap : Nat) (cs : List Instr) : Prop :=
  ∀ m, .wdStart m ∈ cs → wcap < m.toNat

theorem StartsRefused.snoc {wcap : Nat} {cs : List Instr} {i : Instr} (h : StartsRefused wcap cs)
    (hi : ∀ m, i = .wdStart m → wcap < m.toNat) : StartsRefused wcap (cs ++ [i]) := by
  intro m hm
  rcases List.mem_append.mp hm with hm | hm
  · exact h m hm
  · exact hi m (List.mem_singleton.mp hm).symm

/-- The commands so far end in an open frame, and the block has received its bytes. -/
def OpenFrame (cs : List Instr) (b : Block) : Prop :=
  ∃ pre n mid, cs = pre ++ .wdStart n :: mid ∧ n.toNat ≤ b.wcap ∧ b.expect = n ∧ .wdEnd ∉ mid ∧
    StartsRefused b.wcap mid ∧ b.Received (frameBytes mid)

/-- The commands so far hold a frame whose bytes decode to the words of the block, and no frame was
opened after it. -/
def GoodFrame (cs : List Instr) (b : Block) : Prop :=
  ∃ pre n mid post, cs = pre ++ .wdStart n :: mid ++ .wdEnd :: post ∧ n.toNat ≤ b.wcap ∧
    b.wcount = n ∧ .wdEnd ∉ mid ∧ StartsRefused b.wcap (mid ++ post) ∧
    decodeWords (frameBytes mid) n.toNat = .words (b.W.take n.toNat)

/-- A block and the commands of the run that led to it: an open frame has received its bytes and
there is no valid result; a valid result is the decode of one good frame. -/
def FrameHistory (cs : List Instr) (b : Block) : Prop :=
  (b.isOpen = true → b.wvalid = false ∧ OpenFrame cs b) ∧ (b.wvalid = true → GoodFrame cs b)

variable {cs : List Instr} {b b' : Block} {i : Instr} {c : Code} {d : BitVec 32}

theorem openFrame_start {n : Byte} (hn : n.toNat ≤ b.wcap) :
    OpenFrame (cs ++ [.wdStart n]) { b with
      isOpen := true, expect := n, gidx := 0#8, phase := .p0, crcErr := false, isOver := false,
      wvalid := false, wcount := 0#8, wdCode := .ok } :=
  ⟨cs, n, [], rfl, hn, rfl, List.not_mem_nil, nofun, Nat.zero_le _, fun _ => ⟨[], rfl, rfl, rfl⟩⟩

/-- A command inside the frame that pushes no byte, a refused WD.START among them. -/
theorem OpenFrame.snoc_spared (h : OpenFrame cs b) (hend : i ≠ .wdEnd) (hbyte : frameByte i = none)
    (hstart : ∀ m, i = .wdStart m → b.wcap < m.toNat) : OpenFrame (cs ++ [i]) b := by
  obtain ⟨pre, n, mid, rfl, hn, hexp, hmid, hrefused, hr⟩ := h
  refine ⟨pre, n, mid ++ [i], by simp, hn, hexp, by simp [hmid, hend.symm], hrefused.snoc hstart, ?_⟩
  simpa [frameBytes_append, frameBytes, hbyte] using hr

/-- A byte of the frame. -/
theorem OpenFrame.snoc_byte {x : Byte} (h : OpenFrame cs b) (ho : b.isOpen = true)
    (he : Effect b (.wdByte x) b' c d) : OpenFrame (cs ++ [.wdByte x]) b' := by
  obtain ⟨pre, n, mid, rfl, hn, hexp, hmid, hrefused, hr⟩ := h
  have hcap := he.wcap_eq
  refine ⟨pre, n, mid ++ [.wdByte x], by simp, hcap ▸ hn, (he.expect_eq nofun).trans hexp,
    by simp [hmid], hcap ▸ hrefused.snoc nofun, ?_⟩
  rw [frameBytes_append]
  exact he.received ho hr

/-- The WD.END that finds the frame good. -/
theorem OpenFrame.close (h : OpenFrame cs b) (hl : frameLengthOk b = true)
    (hc : b.crcErr = false) :
    GoodFrame (cs ++ [.wdEnd])
      { b with isOpen := false, wvalid := true, wcount := b.expect, wdCode := .ok } := by
  obtain ⟨pre, n, mid, rfl, hn, rfl, hmid, hrefused, hr⟩ := h
  exact ⟨pre, b.expect, mid, [], by simp, hn, rfl, hmid, by simpa using hrefused,
    hr.decodeWords_eq hl hc⟩

/-- Any command after the good frame that opens no new one. -/
theorem GoodFrame.snoc (h : GoodFrame cs b) (hstart : ∀ m, i = .wdStart m → b.wcap < m.toNat) :
    GoodFrame (cs ++ [i]) b := by
  obtain ⟨pre, n, mid, post, rfl, hn, hcount, hmid, hrefused, hwords⟩ := h
  refine ⟨pre, n, mid, post ++ [i], by simp, hn, hcount, hmid, ?_, hwords⟩
  rw [← List.append_assoc]
  exact hrefused.snoc hstart

theorem FrameHistory.snoc_spared (h : FrameHistory cs b) (hend : i ≠ .wdEnd)
    (hbyte : frameByte i = none) (hstart : ∀ m, i = .wdStart m → b.wcap < m.toNat) :
    FrameHistory (cs ++ [i]) b := by
  obtain ⟨hopened, hvalid⟩ := h
  exact ⟨fun ho => (hopened ho).imp_right fun hf => hf.snoc_spared hend hbyte hstart,
    fun hv => (hvalid hv).snoc hstart⟩

/-- Outside a frame WD.BYTE and WD.END are refused and change nothing. -/
theorem FrameHistory.snoc_outside (h : FrameHistory cs b) (ho : b.isOpen = false)
    (hstart : ∀ m, i = .wdStart m → b.wcap < m.toNat) : FrameHistory (cs ++ [i]) b := by
  obtain ⟨-, hvalid⟩ := h
  exact ⟨fun ho' => absurd (ho.symm.trans ho') nofun, fun hv => (hvalid hv).snoc hstart⟩

theorem FrameHistory.snoc_byte {x : Byte} (h : FrameHistory cs b) (ho : b.isOpen = true)
    (he : Effect b (.wdByte x) b' c d) : FrameHistory (cs ++ [.wdByte x]) b' := by
  obtain ⟨hopened, -⟩ := h
  obtain ⟨hv, hf⟩ := hopened ho
  obtain ⟨-, -, hv', -⟩ := he.frame_result_eq nofun nofun
  have hv' : b'.wvalid = false := hv'.trans hv
  exact ⟨fun _ => ⟨hv', hf.snoc_byte ho he⟩, fun h' => absurd (hv'.symm.trans h') nofun⟩

/-- Every command that completes keeps the history of the frames. -/
theorem Effect.keeps_frameHistory (he : Effect b i b' c d) (h : FrameHistory cs b) :
    FrameHistory (cs ++ [i]) b' := by
  have ⟨hopened, _⟩ := h
  cases he with
  | wdStart n hn => exact ⟨fun _ => ⟨rfl, openFrame_start hn⟩, nofun⟩
  | wdStartCap n hn => exact h.snoc_spared nofun rfl (by rintro _ ⟨⟩; exact hn)
  | wdByteSeq x ho => exact h.snoc_outside ho nofun
  | wdByteOver x ho hg => exact h.snoc_byte ho (.wdByteOver x ho hg)
  | wdByte0 x ho hg hp => exact h.snoc_byte ho (.wdByte0 x ho hg hp)
  | wdByte1 x ho hg hp => exact h.snoc_byte ho (.wdByte1 x ho hg hp)
  | wdByte2 x ho hg hp hi => exact h.snoc_byte ho (.wdByte2 x ho hg hp hi)
  | wdEndSeq ho => exact h.snoc_outside ho nofun
  | wdEndLen ho | wdEndCrc ho =>
    obtain ⟨hv, -⟩ := hopened ho
    exact ⟨nofun, fun hv' => absurd (hv.symm.trans hv') nofun⟩
  | wdEndOk ho hl hc =>
    obtain ⟨-, hf⟩ := hopened ho
    exact ⟨nofun, fun _ => hf.close hl hc⟩
  | _ => exact h.snoc_spared nofun rfl nofun

/-- Settles O28: the history of the frames, at the end of the run. -/
theorem validWordsComeFromOneGoodFrame : Obligations.ValidWordsComeFromOneGoodFrame := by
  unfold Obligations.ValidWordsComeFromOneGoodFrame
  intro s t cs tr hrun hv
  obtain ⟨-, hvalid⟩ : FrameHistory cs t.block :=
    execTrace_history ⟨nofun, nofun⟩ (fun _ h he => he.keeps_frameHistory h) hrun
  have hcap : t.block.wcap = s.block.wcap := (execTrace_wcap hrun :)
  rw [← hcap]
  exact hvalid hv

/-! #### The conversions of a run -/

/-- A valid measurement is what one MD.CONV of the run from `s` made of the twenty valid words it
found, and no MD.INV came after it. -/
def MeasurementHistory (s : State) (cs : List Instr) (b : Block) : Prop :=
  b.fvalid = true → ∃ pre post u tr, cs = pre ++ .mdConv :: post ∧ .mdInv ∉ post ∧
    execTrace pre s = .next (u, tr) ∧ u.block.wvalid = true ∧ u.block.wcount = 20#8 ∧
    ∃ ws : Vector Word 20, ws.toList = u.block.W.take 20 ∧ b.F = decodeMeasurement ws

theorem MeasurementHistory.snoc {s : State} (h : MeasurementHistory s cs b) (hinv : i ≠ .mdInv) :
    MeasurementHistory s (cs ++ [i]) b := by
  intro hv
  obtain ⟨pre, post, u, tr, rfl, hpost, hconv⟩ := h hv
  exact ⟨pre, post ++ [i], u, tr, by simp, by simp [hpost, hinv.symm], hconv⟩

/-- Every command that completes keeps the history of the measurement. -/
theorem Effect.keeps_measurementHistory {s u : State} {tr : List (Instr × Response)}
    (he : Effect u.block i b' c d) (hrun : execTrace cs s = .next (u, tr))
    (h : MeasurementHistory s cs u.block) : MeasurementHistory s (cs ++ [i]) b' := by
  cases he with
  | mdConv ws hv hc hw =>
    exact fun _ => ⟨cs, [], u, tr, rfl, List.not_mem_nil, hrun, hv, hc, ws, hw, rfl⟩
  | mdInv => exact nofun
  | _ => exact h.snoc nofun

/-- Settles O29: the history of the measurement, at the end of the run. -/
theorem validMeasurementComesFromOneConversion :
    Obligations.ValidMeasurementComesFromOneConversion := by
  unfold Obligations.ValidMeasurementComesFromOneConversion
  intro s t cs tr hrun
  exact execTrace_history (P := MeasurementHistory (resetEvent s)) (absurd · Bool.false_ne_true)
    (fun hu h he => he.keeps_measurementHistory hu h) hrun

end Sys2Proof.Machine
end

section
/-! ### The reading commands (R61)

A reading command or a reserved beat leaves the block, so a run of them leaves it; and on the same
block the same command has the same response. -/

namespace Sys2Proof.Machine

/-- The commands that never write the block: those that read, NOP, and the reserved beats. -/
def WritesNothing (i : Instr) : Prop :=
  isRead i = true ∨ i = .reservedD ∨ i = .reservedE ∨ i = .reservedF

theorem Effect.block_of_writesNothing {b b' : Block} {i : Instr} {c : Code} {d : BitVec 32}
    (h : Effect b i b' c d) (hi : WritesNothing i) : b' = b := by
  cases h with
  | crcInit | crcUpd | wdStart | wdByteOver | wdByte0 | wdByte1 | wdByte2 | wdEndLen | wdEndCrc
  | wdEndOk | mdConv | mdInv => simp [WritesNothing, isRead] at hi
  | _ => rfl

theorem execTrace_block_of_writesNothing {cs : List Instr} {s t : State}
    {tr : List (Instr × Response)} (h : execTrace cs s = .next (t, tr))
    (hcs : ∀ c ∈ cs, WritesNothing c) : t.block = s.block := by
  induction cs generalizing s tr with
  | nil =>
    obtain ⟨rfl, -⟩ : s = t ∧ [] = tr := by simpa using h
    rfl
  | cons i cs ih =>
    obtain ⟨hi, hcs⟩ := List.forall_mem_cons.mp hcs
    obtain ⟨u, r, tr', hexec, -, hrun, -⟩ := execTrace_cons_eq_next.mp h
    obtain ⟨b, c, d, he, rfl⟩ := exec_next_effect hexec
    exact (ih hrun hcs).trans (he.block_of_writesNothing hi)

/-- A command reads nothing of a state but its block (R21): from equal blocks it leaves equal blocks
and gives equal responses. -/
theorem exec_eq_of_block_eq {i : Instr} {s s' t t' : State} (h : exec i s = .next t)
    (h' : exec i s' = .next t') (hb : s'.block = s.block) :
    t'.block = t.block ∧ t'.rsp = t.rsp := by
  obtain ⟨b, c, d, he, rfl⟩ := exec_next_effect h
  obtain ⟨b', c', d', he', rfl⟩ := exec_next_effect h'
  obtain ⟨rfl, rfl, rfl⟩ := (hb ▸ he').deterministic he
  exact ⟨rfl, rfl⟩

/-- Settles O31: the command finds the same block both times. -/
theorem readsHaveNoSideEffects : Obligations.ReadsHaveNoSideEffects := by
  unfold Obligations.ReadsHaveNoSideEffects
  intro i cs s t u v tr hi hcs hfirst hbetween hsecond
  have ht : t.block = s.block := by
    obtain ⟨b, c, d, he, rfl⟩ := exec_next_effect hfirst
    exact he.block_of_writesNothing (.inl hi)
  have hu : u.block = s.block := (execTrace_block_of_writesNothing hbetween hcs).trans ht
  obtain ⟨hv, hrsp⟩ := exec_eq_of_block_eq hfirst hsecond hu
  exact ⟨ht, hu, hv.trans ht, hrsp⟩

end Sys2Proof.Machine
end

section
/-! ### The encoding of the command beat (R70, R71, R82, R84)

A beat is its two fields joined and the table of R71 is a bijection of the `op` values and the rows,
so the decoder, the encoder and the masks of the table are facts about the two fields apart. -/

namespace Sys2Proof

/-! #### The command of a row and an operand -/

@[simp] theorem Instr.ofOp_op_arg (i : Instr) : Instr.ofOp i.op i.arg = i := by cases i <;> rfl

@[simp] theorem Instr.op_ofOp (op : Op) (arg : Byte) : (Instr.ofOp op arg).op = op := by
  cases op <;> rfl

@[simp] theorem Instr.wellFormed_eq_true (i : Instr) : i.wellFormed = true := by cases i <;> rfl

/-- A row of format CA keeps every bit of its operand. -/
theorem Instr.arg_ofOp {op : Op} (hf : op.format = .ca) (arg : Byte) :
    (Instr.ofOp op arg).arg = arg := by
  cases op with
  | crcUpd | crcChk | wdStart | wdByte | wdRdw | mdRdf => rfl
  | _ => cases hf

/-- A row of format C0 drops its operand. -/
theorem Instr.ofOp_eq_of_c0 {op : Op} (hf : op.format = .c0) (arg arg' : Byte) :
    Instr.ofOp op arg = Instr.ofOp op arg' := by
  cases op with
  | crcUpd | crcChk | wdStart | wdByte | wdRdw | mdRdf => cases hf
  | _ => rfl

theorem Instr.ofOp_eq_iff {op op' : Op} {arg arg' : Byte} :
    Instr.ofOp op arg = Instr.ofOp op' arg' ↔ op = op' ∧ (op.format = .ca → arg = arg') := by
  constructor
  · intro h
    obtain rfl : op = op' := by simpa using congrArg Instr.op h
    refine ⟨rfl, fun hf => ?_⟩
    simpa [Instr.arg_ofOp hf] using congrArg Instr.arg h
  · rintro ⟨rfl, harg⟩
    cases hf : op.format with
    | c0 => exact Instr.ofOp_eq_of_c0 hf arg arg'
    | ca => rw [harg hf]

/-! #### The rows of the table -/

theorem Op.ofBits_inj {op op' : OpBits} : Op.ofBits op = Op.ofBits op' ↔ op = op' :=
  ⟨fun h => by simpa [Op.toBits_ofBits] using congrArg Op.toBits h, congrArg Op.ofBits⟩

/-- The row that a beat selects by its `op` field. -/
theorem op_decode (beat : Beat) : (decode beat).op = Op.ofBits (beatOp beat) := by simp [decode]

/-- Every row of the table has the mask of the `op` field and its `op` value as the bits set. -/
theorem opcodeTable_layout : ∀ row ∈ opcodeTable,
    row.mask = 0xF00#12 ∧ row.bitsSet = joinBeat row.op.toBits 0x00#8 := by decide

theorem exists_row_of_op (op : Op) : ∃ row ∈ opcodeTable, row.op = op := by cases op <;> decide

/-- No two rows of the table have the same `op`. -/
theorem row_eq_of_op_eq : ∀ row ∈ opcodeTable, ∀ other ∈ opcodeTable,
    other.op = row.op → other = row := by decide

/-- A beat spells a row of the table exactly when it decodes to the row's command (R71). -/
theorem spelledBy_iff_op_decode {row : OpcodeRow} (hrow : row ∈ opcodeTable) (beat : Beat) :
    row.spelledBy beat = true ↔ (decode beat).op = row.op := by
  obtain ⟨hmask, hbits⟩ := opcodeTable_layout row hrow
  have hand : beat &&& 0xF00#12 = joinBeat (beatOp beat) 0x00#8 := by
    conv_lhs => rw [← joinBeat_fields beat]
    exact Laws.SpellsItsRow.joinBeat_and_mask _ _
  rw [OpcodeRow.spelledBy, beq_iff_eq, hmask, hbits, hand, op_decode]
  constructor
  · intro h
    have hop : beatOp beat = row.op.toBits := by simpa using congrArg beatOp h
    rw [hop, Op.ofBits_toBits]
  · intro h
    rw [← h, Op.toBits_ofBits]

/-! #### The obligations on the encoding -/

/-- Settles O16: the decoder reads back the two fields the encoder joined. -/
theorem decodeOfEncodeIsIdentity : Obligations.DecodeOfEncodeIsIdentity := by
  unfold Obligations.DecodeOfEncodeIsIdentity
  intro i
  refine ⟨?_, beatOp_joinBeat _ _, beatArg_joinBeat _ _, i.wellFormed_eq_true⟩
  rw [encode, decode_joinBeat, Op.ofBits_toBits, Instr.ofOp_op_arg]

/-- Settles O17: the row is the one that has the `op` of the decoded command. -/
theorem everyBeatSpellsExactlyOneRow : Obligations.EveryBeatSpellsExactlyOneRow := by
  unfold Obligations.EveryBeatSpellsExactlyOneRow
  intro beat
  obtain ⟨row, hrow, hop⟩ := exists_row_of_op (decode beat).op
  refine ⟨row, hrow, (spelledBy_iff_op_decode hrow beat).mpr hop.symm, hop.symm, ?_⟩
  intro other hother hspelled
  have hop' := (spelledBy_iff_op_decode hother beat).mp hspelled
  exact row_eq_of_op_eq row hrow other hother (hop'.symm.trans hop.symm)

/-- Settles O18: equal decoded commands are equal rows and, on a row of format CA, equal operands. -/
theorem argIsIgnoredExactlyOnC0Rows : Obligations.ArgIsIgnoredExactlyOnC0Rows := by
  unfold Obligations.ArgIsIgnoredExactlyOnC0Rows
  intro b b'
  rw [op_decode, decode, decode, Instr.ofOp_eq_iff, Op.ofBits_inj]

/-- Settles O15: each beat is evaluated bit by bit. -/
theorem writtenOutBeatsDecode : Obligations.WrittenOutBeatsDecode := by
  unfold Obligations.WrittenOutBeatsDecode
  decide

end Sys2Proof
end

section
/-! ### The named payloads (R79, R80, R83)

The serial-number string and the frame are both a fixed number of bytes per word, so an index into
either is a word's index and a position inside that word's bytes. -/

namespace Sys2Proof.Machine

/-- The list that takes `k` entries from every element: entry `k * i + j` is entry `j` of those that
element `i` gives. -/
theorem getElem?_flatMap_of_length {α β : Type} {f : α → List β} {k : Nat}
    (hf : ∀ a, (f a).length = k) (l : List α) (i : Nat) {j : Nat} (hj : j < k) :
    (l.flatMap f)[k * i + j]? = l[i]?.bind fun a => (f a)[j]? := by
  induction l generalizing i with
  | nil => simp
  | cons a l ih =>
    rw [List.flatMap_cons]
    cases i with
    | zero => simp [List.getElem?_append_left, hf, hj]
    | succ i =>
      rw [List.getElem?_append_right (by rw [hf, Nat.mul_succ]; omega), hf,
        show k * (i + 1) + j - k = k * i + j by rw [Nat.mul_succ]; omega]
      simpa using ih i

/-- Byte `j` of word `i` in the serial-number string (R79). -/
theorem serialString_getElem? (ws : List Word) (i : Nat) {j : Nat} (hj : j < 2) :
    (serialString ws)[2 * i + j]? = ws[i]?.bind fun w => [wordHi w, wordLo w][j]? :=
  getElem?_flatMap_of_length (f := fun w => [wordHi w, wordLo w]) (fun _ => rfl) ws i hj

/-- Byte `j` of the group of word `i` in an encoded frame (R126). -/
theorem encodeWords_getElem? (ws : List Word) (i : Nat) {j : Nat} (hj : j < 3) :
    (encodeWords ws)[3 * i + j]? = ws[i]?.bind fun w => (wordGroup w)[j]? :=
  getElem?_flatMap_of_length (f := wordGroup) (fun _ => rfl) ws i hj

theorem serialString_length (ws : List Word) : (serialString ws).length = 2 * ws.length := by
  simp [serialString, List.length_flatMap, Nat.mul_comm]

/-- The checksum byte of the start-measurement payload (R83). -/
theorem crc8_startMeasurement : crc8 [0x03#8, 0x00#8] = 0xAC#8 := by decide +kernel

/-- Settles O52: each byte of the string and of the frame is a byte of its word. -/
theorem namedPayloadsAreLaidOutAsTheRuleSays : Obligations.NamedPayloadsAreLaidOutAsTheRuleSays := by
  unfold Obligations.NamedPayloadsAreLaidOutAsTheRuleSays
  have hstart : startMeasurementPayload = [0x00#8, 0x10#8, 0x03#8, 0x00#8, 0xAC#8] := by
    simp [startMeasurementPayload, groupBytes, crc8_startMeasurement]
  refine ⟨fun ws i w hw => ?_, fun w => by simp [dataReady, wordLo], hstart⟩
  have hhi : (serialString ws)[2 * i]? = some (wordHi w) := by
    simpa [hw] using serialString_getElem? ws i (j := 0) (by decide)
  have hlo : (serialString ws)[2 * i + 1]? = some (wordLo w) := by
    simpa [hw] using serialString_getElem? ws i (j := 1) (by decide)
  have hframeHi : (encodeWords ws)[3 * i]? = some (wordHi w) := by
    simpa [hw, wordGroup, groupBytes] using encodeWords_getElem? ws i (j := 0) (by decide)
  have hframeLo : (encodeWords ws)[3 * i + 1]? = some (wordLo w) := by
    simpa [hw, wordGroup, groupBytes] using encodeWords_getElem? ws i (j := 1) (by decide)
  exact ⟨serialString_length ws, hhi, hlo, hframeHi.trans hhi.symm, hframeLo.trans hlo.symm⟩

end Sys2Proof.Machine
end

section
/-! ### The pseudo-instructions CHECKSUM and FRAME (R86, R87)

Both run from any state at all, so the runs are built command by command from effects. While a frame
is open `Block.InFrame` relates the block to the bytes that FRAME has pushed. -/

namespace Sys2Proof.Machine

/-! #### Building a run from effects -/

variable {s t u : State} {b : Block} {i : Instr} {is cs : List Instr} {c : Code} {d : BitVec 32}
  {tr : List (Instr × Response)}

/-- A command that has an effect, and the run that follows it. -/
theorem Effect.execTrace_cons (he : Effect s.block i b c d)
    (hrun : execTrace is (s.after b c d) = .next (u, tr)) :
    execTrace (i :: is) s = .next (u, (i, ⟨c, d⟩) :: tr) :=
  execTrace_cons_eq_next.mpr ⟨_, _, _, he.exec_eq, rfl, hrun, rfl⟩

/-- A run, and one more command that has an effect on the block it left. -/
theorem Effect.execTrace_snoc (he : Effect t.block i b c d) (hrun : execTrace cs s = .next (t, tr)) :
    execTrace (cs ++ [i]) s = .next (t.after b c d, tr ++ [(i, ⟨c, d⟩)]) :=
  execTrace_append_eq_next.mpr ⟨_, _, _, hrun, he.execTrace_cons rfl, rfl⟩

/-- The response that stood on the channel before a run does not matter to it: the first command
replaces it. -/
theorem execTrace_after_block (hrun : execTrace (i :: is) s = .next (u, tr)) (c : Code)
    (d : BitVec 32) : execTrace (i :: is) (s.after s.block c d) = .next (u, tr) := by
  obtain ⟨t, r, tr', hexec, hr, hrest, rfl⟩ := execTrace_cons_eq_next.mp hrun
  obtain ⟨b', c', d', he, rfl⟩ := exec_next_effect hexec
  refine execTrace_cons_eq_next.mpr ⟨_, r, tr', ?_, hr, hrest, rfl⟩
  exact Effect.exec_eq (s := s.after s.block c d) he

/-! #### CHECKSUM -/

/-- CRC.UPD commands absorb their bytes in order and write nothing but `crc` (R107, R111). -/
theorem execTrace_crcUpds (bs : List Byte) (s : State) :
    ∃ t tr, execTrace (bs.map .crcUpd) s = .next (t, tr) ∧
      t.block = { s.block with crc := crc8From s.block.crc bs } := by
  induction bs generalizing s with
  | nil => exact ⟨s, [], rfl, rfl⟩
  | cons x bs ih =>
    obtain ⟨t, tr, hrun, hblock⟩ :=
      ih (s.after { s.block with crc := crc8Update s.block.crc x } .ok 0#32)
    exact ⟨t, _, (Effect.crcUpd x).execTrace_cons hrun, hblock⟩

/-- Settles O49: CRC.INIT starts at 0xFF, the bytes are absorbed, and CRC.GET responds the result. -/
theorem checksumPseudoInstructionRespondsChecksum :
    Obligations.ChecksumPseudoInstructionRespondsChecksum := by
  unfold Obligations.ChecksumPseudoInstructionRespondsChecksum
  intro s bs
  obtain ⟨t, tr, hrun, hblock⟩ :=
    execTrace_crcUpds bs (s.after { s.block with crc := 0xFF#8 } .ok 0#32)
  have hcrc : t.block.crc = crc8 bs := by rw [hblock]; rfl
  have hget := (Effect.crcGet (b := t.block)).execTrace_snoc hrun
  exact ⟨_, _, Effect.crcInit.execTrace_cons hget, rfl, by rw [after_rsp, hcrc], hblock⟩

/-! #### The open frame of FRAME -/

/-- A frame of `n` words is open, fits W, and has received the bytes `xs`; one too many came only if
they are more than `n` groups. -/
structure Block.InFrame (b : Block) (n : Byte) (xs : List Byte) : Prop where
  isOpen : b.isOpen = true
  expect : b.expect = n
  fits : n.toNat ≤ b.wcap
  received : b.Received xs
  over_long : b.isOver = true → 3 * n.toNat < xs.length

/-- The bytes counted are the bytes received, while not one too many came (R30). -/
theorem Block.Received.bytesCounted_eq {b : Block} {xs : List Byte} (h : b.Received xs)
    (hover : b.isOver = false) : xs.length = bytesCounted b := by
  obtain ⟨-, hbytes⟩ := h
  obtain ⟨gs, rfl, hlen, -⟩ := hbytes hover
  cases hp : b.phase <;> simp [bytesCounted, Block.partialGroup, Phase.toNat, Phase.toBits, hp, hlen]

/-- An accepted WD.START opens the frame with no bytes. -/
theorem inFrame_start {n : Byte} (hn : n.toNat ≤ b.wcap) :
    Block.InFrame { b with
      isOpen := true, expect := n, gidx := 0#8, phase := .p0, crcErr := false, isOver := false,
      wvalid := false, wcount := 0#8, wdCode := .ok } n [] :=
  ⟨rfl, rfl, hn, ⟨Nat.zero_le _, fun _ => ⟨[], rfl, rfl, rfl⟩⟩, nofun⟩

/-- In an open frame that fits W every WD.BYTE has an effect, an OK, and its byte is received. -/
theorem Block.InFrame.exists_byte {n : Byte} {xs : List Byte} (h : b.InFrame n xs) (x : Byte) :
    ∃ b', Effect b (.wdByte x) b' .ok 0#32 ∧ b'.InFrame n (xs ++ [x]) := by
  obtain ⟨ho, rfl, hfits, hr, hlong⟩ := h
  have hlong' : b.isOver = true → 3 * b.expect.toNat < (xs ++ [x]).length := fun hover => by
    simpa using Nat.lt_succ_of_lt (hlong hover)
  by_cases hg : b.gidx = b.expect
  · have he : Effect b (.wdByte x) _ _ _ := .wdByteOver x ho hg
    refine ⟨_, he, ho, rfl, hfits, he.received ho hr, fun _ => ?_⟩
    cases hover : b.isOver with
    | true => exact hlong' hover
    | false =>
      have := hr.bytesCounted_eq hover
      simp [this, bytesCounted, hg]
  · cases hp : b.phase with
    | p0 =>
      have he : Effect b (.wdByte x) _ _ _ := .wdByte0 x ho hg hp
      exact ⟨_, he, ho, rfl, hfits, he.received ho hr, hlong'⟩
    | p1 =>
      have he : Effect b (.wdByte x) _ _ _ := .wdByte1 x ho hg hp
      exact ⟨_, he, ho, rfl, hfits, he.received ho hr, hlong'⟩
    | p2 =>
      have hexp : b.gidx.toNat < b.expect.toNat :=
        Nat.lt_of_le_of_ne hr.1 fun e => hg (BitVec.eq_of_toNat_eq e)
      have he : Effect b (.wdByte x) _ _ _ :=
        .wdByte2 x ho hg hp (Nat.lt_of_lt_of_le hexp hfits)
      exact ⟨_, he, ho, rfl, he.wcap_eq ▸ hfits, he.received ho hr, hlong'⟩

/-- The bytes of a frame run from inside it, and all are received. -/
theorem Block.InFrame.execTrace_bytes {n : Byte} {xs : List Byte} (h : s.block.InFrame n xs)
    (ys : List Byte) : ∃ t tr, execTrace (ys.map .wdByte) s = .next (t, tr) ∧
      t.block.InFrame n (xs ++ ys) := by
  induction ys generalizing s xs with
  | nil => exact ⟨s, [], rfl, by simpa using h⟩
  | cons y ys ih =>
    obtain ⟨b', he, hb'⟩ := h.exists_byte y
    obtain ⟨t, tr, hrun, ht⟩ := ih (s := s.after b' .ok 0#32) hb'
    exact ⟨t, _, he.execTrace_cons hrun, by simpa using ht⟩

/-! #### The verdict -/

/-- WD.END's length test is that of `decode_words` (R121, R131). -/
theorem Block.InFrame.frameLengthOk_iff_length {n : Byte} {xs : List Byte} (h : b.InFrame n xs) :
    frameLengthOk b = true ↔ xs.length = 3 * n.toNat := by
  obtain ⟨-, rfl, -, hr, hlong⟩ := h
  rw [frameLengthOk_iff]
  cases hover : b.isOver with
  | true => simpa using (hlong hover).ne'
  | false =>
    have hle := hr.1
    rw [hr.bytesCounted_eq hover, bytesCounted, ← BitVec.toNat_inj]
    cases b.phase <;> simp [Phase.toNat, Phase.toBits] <;> omega

/-- A frame of the right length with a failed group is a Checksum Failure (R124). -/
theorem Block.InFrame.decodeWords_of_crcErr {n : Byte} {xs : List Byte} (h : b.InFrame n xs)
    (hl : frameLengthOk b = true) (hc : b.crcErr = true) :
    decodeWords xs n.toNat = .checksumFailure := by
  obtain ⟨hover, hp, -⟩ := (frameLengthOk_iff b).mp hl
  obtain ⟨gs, rfl, -, hwords⟩ := h.received.2 hover
  rw [decodeWords, if_pos (h.frameLengthOk_iff_length.mp hl)]
  simp [Block.partialGroup, hp, hwords, hc]

/-- In an open frame WD.END answers the verdict of `decode_words` on the bytes received (R131). -/
theorem Block.InFrame.exists_end {n : Byte} {xs : List Byte} (h : b.InFrame n xs) :
    ∃ b' c d, Effect b .wdEnd b' c d ∧
      ((decodeWords xs n.toNat = .lengthFailure ∧ c = .eLen ∧ d = 0#32) ∨
       (decodeWords xs n.toNat = .checksumFailure ∧ c = .eCrc ∧ d = 0#32) ∨
       ∃ ws, decodeWords xs n.toNat = .words ws ∧ c = .ok ∧ d = n.zeroExtend 32) := by
  cases hl : frameLengthOk b with
  | false =>
    have hlen : xs.length ≠ 3 * n.toNat := by simp [← h.frameLengthOk_iff_length, hl]
    exact ⟨_, _, _, .wdEndLen h.isOpen hl, .inl ⟨by simp [decodeWords, hlen], rfl, rfl⟩⟩
  | true =>
    cases hc : b.crcErr with
    | true =>
      exact ⟨_, _, _, .wdEndCrc h.isOpen hl hc,
        .inr (.inl ⟨h.decodeWords_of_crcErr hl hc, rfl, rfl⟩)⟩
    | false =>
      obtain rfl := h.expect
      exact ⟨_, _, _, .wdEndOk h.isOpen hl hc,
        .inr (.inr ⟨_, h.received.decodeWords_eq hl hc, rfl, rfl⟩)⟩

/-! #### FRAME refused -/

/-- With no frame open every byte and the end are refused, and nothing changes (R130, R131). -/
theorem execTrace_bytes_end_closed (ho : s.block.isOpen = false) (xs : List Byte) :
    execTrace (xs.map .wdByte ++ [.wdEnd]) s = .next (s.after s.block .eSeq 0#32,
      xs.map (fun x => (.wdByte x, ⟨.eSeq, 0#32⟩)) ++ [(.wdEnd, ⟨.eSeq, 0#32⟩)]) := by
  induction xs generalizing s with
  | nil => exact (Effect.wdEndSeq ho).execTrace_cons rfl
  | cons x xs ih =>
    exact (Effect.wdByteSeq x ho).execTrace_cons (ih (s := s.after s.block .eSeq 0#32) ho)

/-- Settles O55: accepted, the bytes are received and WD.END gives their verdict; refused, the
commands after the WD.START run as without it. -/
theorem framePseudoInstructionGivesVerdict : Obligations.FramePseudoInstructionGivesVerdict := by
  unfold Obligations.FramePseudoInstructionGivesVerdict
  refine ⟨fun s n xs hn => ?_, fun s n xs hcap ho => ?_, fun s u n xs tr hcap _ hrun => ?_⟩
  · obtain ⟨t, tr, hrun, ht⟩ := Block.InFrame.execTrace_bytes
      (s := s.after _ .ok 0#32) (inFrame_start hn) xs
    obtain ⟨b', c, d, hend, hverdict⟩ := ht.exists_end
    refine ⟨_, _, (Effect.wdStart n hn).execTrace_cons (hend.execTrace_snoc hrun), ?_⟩
    rw [List.nil_append] at hverdict
    rcases hverdict with ⟨hd, rfl, rfl⟩ | ⟨hd, rfl, rfl⟩ | ⟨ws, hd, rfl, rfl⟩ <;>
      simp only [hd, after_rsp]
  · exact (Effect.wdStartCap n hcap).execTrace_cons
      (execTrace_bytes_end_closed (s := s.after s.block .eCap 0#32) ho xs)
  · have hafter : execTrace (xs.map .wdByte ++ [.wdEnd]) (s.after s.block .eCap 0#32) =
        .next (u, tr) := by
      cases xs with
      | nil => exact execTrace_after_block hrun .eCap 0#32
      | cons x xs => exact execTrace_after_block hrun .eCap 0#32
    exact (Effect.wdStartCap n hcap).execTrace_cons hafter

end Sys2Proof.Machine
end

section
/-! ### The commands of the Checksum Engine (R106 to R111)

Each CE command has one effect, whatever stands in the block, and every other command leaves `crc`
alone. A run from a state that meets R40 therefore leaves `crc` at the fold over its CRC.UPD bytes. -/

namespace Sys2Proof.Machine

variable {b b' : Block} {i : Instr} {c : Code} {d : BitVec 32}

/-! #### A run that mixes the CE commands with others -/

/-- A command other than CRC.INIT absorbs its CRC byte, if it has one, and nothing else reaches
`crc`. -/
theorem Effect.crc_eq_crc8From (h : Effect b i b' c d) (hinit : i ≠ .crcInit) :
    b'.crc = crc8From b.crc (crcByte i).toList := by
  cases h with
  | crcInit => exact absurd rfl hinit
  | _ => rfl

theorem crcBytes_cons (i : Instr) (cs : List Instr) :
    crcBytes (i :: cs) = (crcByte i).toList ++ crcBytes cs := by
  unfold crcBytes
  cases h : crcByte i <;> simp [h]

/-- Commands without a CRC.INIT run to the end where R40 holds, and continue the running value over
their CRC bytes. -/
theorem exists_execTrace_crc {cs : List Instr} {s : State} (hs : s.block.Inv)
    (hinit : ∀ i ∈ cs, i ≠ .crcInit) :
    ∃ t tr, execTrace cs s = .next (t, tr) ∧ t.block.crc = crc8From s.block.crc (crcBytes cs) := by
  induction cs generalizing s with
  | nil => exact ⟨s, [], rfl, rfl⟩
  | cons i cs ih =>
    obtain ⟨hi, hrest⟩ := List.forall_mem_cons.mp hinit
    obtain ⟨b, c, d, he⟩ := hs.exists_effect i
    obtain ⟨t, tr, hrun, hcrc⟩ := ih (s := s.after b c d) (he.keeps_inv hs) hrest
    refine ⟨t, _, he.execTrace_cons hrun, ?_⟩
    rw [hcrc, after_block, he.crc_eq_crc8From hi, ← crc8From_append, ← crcBytes_cons]

theorem exec_crcGet (s : State) :
    exec .crcGet s = .next (s.after s.block .ok (s.block.crc.zeroExtend 32)) :=
  Effect.crcGet.exec_eq

/-- CRC.CHK compares with the running value and leaves no trace in the block (R109). -/
theorem exec_crcChk (x : Byte) (s : State) :
    exec (.crcChk x) s = .next (s.after s.block (if x = s.block.crc then .ok else .eCrc) 0#32) := by
  by_cases h : x = s.block.crc
  · rw [if_pos h]; exact (Effect.crcChkOk x h.symm).exec_eq
  · rw [if_neg h]; exact (Effect.crcChkBad x (Ne.symm h)).exec_eq

/-- Settles O47: CRC.INIT starts the running value at 0xFF, and the commands after it continue it. -/
theorem crcCommandsRefineChecksum : Obligations.CrcCommandsRefineChecksum := by
  unfold Obligations.CrcCommandsRefineChecksum
  intro s cs hs hinit
  have he : Effect s.block .crcInit { s.block with crc := 0xFF#8 } .ok 0#32 := .crcInit
  obtain ⟨t, tr, hrun, hcrc⟩ := exists_execTrace_crc (s := s.after _ .ok 0#32) (he.keeps_inv hs) hinit
  replace hcrc : t.block.crc = crc8 (crcBytes cs) := hcrc
  refine ⟨t, _, he.execTrace_cons hrun, hcrc, ?_, fun x => ?_⟩
  · rw [exec_crcGet, hcrc]
  · rw [exec_crcChk, hcrc]

/-! #### A checksum in pieces, and the commands one by one -/

/-- Settles O48: each piece is the fold of the update from the running value it finds. -/
theorem checksumMayBeComputedInPieces : Obligations.ChecksumMayBeComputedInPieces := by
  unfold Obligations.ChecksumMayBeComputedInPieces
  refine ⟨fun s bs => execTrace_crcUpds bs s, fun s bs => ?_, crc8From_append crcInitial⟩
  obtain ⟨t, tr, hrun, hblock⟩ := execTrace_crcUpds bs (resetEvent s)
  exact ⟨t, tr, hrun, by rw [hblock]; rfl⟩

/-- Settles O2: one effect, whatever stands in the block. -/
theorem crcInitStartsNewChecksum : Obligations.CrcInitStartsNewChecksum := by
  unfold Obligations.CrcInitStartsNewChecksum
  exact ⟨decode_joinBeat 0x1#4, fun _ => Effect.crcInit.exec_eq⟩

/-- Settles O3: the update from `crc` with 0x00 is eight steps of `crc` itself. -/
theorem crcUpdAbsorbsOneByte : Obligations.CrcUpdAbsorbsOneByte := by
  unfold Obligations.CrcUpdAbsorbsOneByte
  refine ⟨decode_joinBeat 0x2#4, fun x _ => (Effect.crcUpd x).exec_eq, fun c => ?_,
    by decide, by decide, by decide, resetBlock_crc⟩
  simp [crc8Update, crc8Steps]

/-- Settles O4: the response after the reset event is the extension of 0xFF. -/
theorem crcGetRespondsRunningValue : Obligations.CrcGetRespondsRunningValue := by
  unfold Obligations.CrcGetRespondsRunningValue
  exact ⟨decode_joinBeat 0x3#4, exec_crcGet, fun s => ⟨_, exec_crcGet (resetEvent s), rfl⟩⟩

/-- Settles O5: the two outcomes of the comparison are two effects, and both keep the block. -/
theorem crcChkComparesWithoutAbsorbing : Obligations.CrcChkComparesWithoutAbsorbing := by
  unfold Obligations.CrcChkComparesWithoutAbsorbing
  exact ⟨decode_joinBeat 0x4#4, rfl, fun x _ h => (Effect.crcChkOk x h).exec_eq,
    fun x _ h => (Effect.crcChkBad x h).exec_eq⟩

end Sys2Proof.Machine
end

section
/-! ### The checksum function: its algorithm, linearity, and the errors it detects (R100 to R105)

Every step is linear over XOR and loses nothing, so the update and the whole fold are injective in the
running value, and a corrupted byte is never absorbed into the same value. -/

namespace Sys2Proof.Machine

/-! #### The algorithm on bits -/

/-- A shift up by one is the seven low bits with a zero below them. -/
theorem shiftLeft_one_eq_append (x : Byte) : x <<< 1 = x.extractLsb' 0 7 ++ 0#1 := by
  refine BitVec.eq_of_getLsbD_eq fun i hi => ?_
  rw [BitVec.getLsbD_append, BitVec.getLsbD_shiftLeft]
  by_cases h : i < 1
  · simp [h]
  · simp [h, hi, show i - 1 < 7 by omega]

/-- Settles O44: the eight steps, 0xFF for the empty list, and one more byte at the end of a list. -/
theorem checksumIsTheSpecifiedAlgorithm : Obligations.ChecksumIsTheSpecifiedAlgorithm := by
  unfold Obligations.ChecksumIsTheSpecifiedAlgorithm
  refine ⟨fun x => ?_, fun _ _ => rfl, rfl, fun bytes b => crc8From_append crcInitial bytes [b]⟩
  rw [crc8Step_eq_xor, shiftLeft_one_eq_append]
  rfl

/-! #### The step and the update lose nothing -/

/-- The lowest bit of a step is the bit that was shifted out, since the polynomial is odd (R105 a). -/
theorem crc8Step_getElem_zero (x : Byte) : (crc8Step x)[0] = x[7] := by
  rw [crc8Step_eq_xor]
  cases x[7] <;> simp [crcPoly]

/-- `x[7]`, and then `x[6:0]`, are recovered from the result of a step (R105 a). -/
theorem crc8Step_injective : Function.Injective crc8Step := by
  intro x y h
  have h7 : x[7] = y[7] := by rw [← crc8Step_getElem_zero, h, crc8Step_getElem_zero]
  have hshift : x <<< 1 = y <<< 1 := by
    rw [crc8Step_eq_xor, crc8Step_eq_xor, h7] at h
    exact (BitVec.xor_left_inj _).mp h
  refine BitVec.eq_of_getElem_eq fun i hi => ?_
  by_cases hi7 : i = 7
  · subst hi7
    exact h7
  · have hbit := congrArg (BitVec.getLsbD · (i + 1)) hshift
    simpa [show i + 1 < 8 by omega, hi] using hbit

theorem crc8Steps_injective (k : Nat) : Function.Injective (crc8Steps k) := by
  induction k with
  | zero => exact Function.injective_id
  | succ k ih => exact ih.comp crc8Step_injective

/-- The update from a running value loses nothing of the byte (R105 c). -/
theorem crc8Update_injective (c : Byte) : Function.Injective (crc8Update c) :=
  (crc8Steps_injective 8).comp fun _ _ => (BitVec.xor_right_inj c).mp

theorem crc8Update_comm (c b : Byte) : crc8Update c b = crc8Update b c := by
  rw [crc8Update, crc8Update, BitVec.xor_comm]

/-- The update with a byte loses nothing of the running value (R105 c). -/
theorem crc8Update_injective_left (b : Byte) : Function.Injective fun c => crc8Update c b := by
  intro c c' h
  refine crc8Update_injective b ?_
  simpa only [crc8Update_comm b] using h

/-- The update is linear in its two arguments together. -/
theorem crc8Update_xor (c d a b : Byte) :
    crc8Update (c ^^^ d) (a ^^^ b) = crc8Update c a ^^^ crc8Update d b := by
  unfold crc8Update
  rw [← crc8Steps_xor]
  congr 1
  ac_rfl

/-- The update is the XOR of what the running value and the byte give alone (R105 b). -/
theorem crc8Update_eq_xor (c b : Byte) :
    crc8Update c b = crc8Update 0#8 c ^^^ crc8Update 0#8 b := by
  rw [crc8Update_comm 0#8 c, ← crc8Update_xor, BitVec.xor_zero, BitVec.zero_xor]

/-- A leading 0x03 turns 0xFF into 0xFF, so the checksum does not see it (R105 f). -/
theorem crc8_cons_three (l : List Byte) : crc8 (0x03#8 :: l) = crc8 l := by
  have h : crc8Update crcInitial 0x03#8 = crcInitial := by decide
  rw [crc8, crc8From_cons, h, crc8]

/-- Settles O45: what is injective on the finitely many bytes is a bijection. -/
theorem checksumStepIsLinearAndBijective : Obligations.ChecksumStepIsLinearAndBijective := by
  unfold Obligations.ChecksumStepIsLinearAndBijective
  have hbij c := (crc8Update_injective c).bijective_of_finite
  exact ⟨crc8Step_injective.bijective_of_finite, crc8Step_xor,
    fun c b => ⟨crc8Update_eq_zero_xor c b, crc8Update_eq_xor c b⟩, hbij,
    fun b => (crc8Update_injective_left b).bijective_of_finite,
    fun t c => (hbij c).existsUnique t, crc8_cons_three⟩

/-! #### Errors of one and two bits -/

/-- Two running values that differ stay different over any further bytes. -/
theorem crc8From_injective (l : List Byte) : Function.Injective fun c => crc8From c l := by
  induction l with
  | nil => exact Function.injective_id
  | cons x l ih => exact ih.comp (crc8Update_injective_left x)

/-- Two lists that differ in one byte have different checksums. -/
theorem crc8_ne_of_ne (pre post : List Byte) {x y : Byte} (h : x ≠ y) :
    crc8 (pre ++ x :: post) ≠ crc8 (pre ++ y :: post) := by
  simp only [crc8, crc8From_append, crc8From_cons]
  exact fun he => h (crc8Update_injective _ (crc8From_injective post he))

/-- Flipping one bit is a change. -/
theorem xor_twoPow_ne {k : Nat} {x : Byte} (hk : k < 8) : x ^^^ BitVec.twoPow 8 k ≠ x := by
  intro h
  simpa [hk] using congrArg (BitVec.getLsbD · k) h

theorem groupPasses_eq_false_iff {g0 g1 x : Byte} :
    groupPasses g0 g1 x = false ↔ x ≠ crc8 [g0, g1] := by
  rw [← Bool.not_eq_true, groupPasses_iff]

/-- What an error in the data bytes does to a group's checksum does not depend on the group (R105 e). -/
theorem crc8_pair_xor (g0 g1 d0 d1 : Byte) :
    crc8 [g0 ^^^ d0, g1 ^^^ d1] = crc8 [g0, g1] ^^^ crc8Update (crc8Update 0#8 d0) d1 := by
  simp only [crc8, crc8From_cons, crc8From_nil]
  rw [← crc8Update_xor, ← crc8Update_xor, BitVec.xor_zero]

/-- No two of the sixteen data bits cancel: evaluated for every pair of bits in the all-zero group, as
R105 (e) does. -/
theorem crc8Update_twoBits_ne_zero : ∀ j < 16, ∀ k < 16, j ≠ k →
    crc8Update (crc8Update 0#8 (wordHi (BitVec.twoPow 16 j ^^^ BitVec.twoPow 16 k)))
      (wordLo (BitVec.twoPow 16 j ^^^ BitVec.twoPow 16 k)) ≠ 0#8 := by decide +kernel

theorem wordHi_xor (v w : Word) : wordHi (v ^^^ w) = wordHi v ^^^ wordHi w :=
  BitVec.extractLsb'_xor

theorem wordLo_xor (v w : Word) : wordLo (v ^^^ w) = wordLo v ^^^ wordLo w :=
  BitVec.extractLsb'_xor

/-- Two flipped data bits make a group fail its check, whatever the group. -/
theorem groupPasses_twoBits (g0 g1 : Byte) {j k : Nat} (hj : j < 16) (hk : k < 16) (hjk : j ≠ k) :
    groupPasses
      (wordHi ((g0 ++ g1) ^^^ BitVec.twoPow 16 j ^^^ BitVec.twoPow 16 k))
      (wordLo ((g0 ++ g1) ^^^ BitVec.twoPow 16 j ^^^ BitVec.twoPow 16 k))
      (crc8 [g0, g1]) = false := by
  rw [groupPasses_eq_false_iff, BitVec.xor_assoc, wordHi_xor, wordLo_xor, wordHi_append,
    wordLo_append, crc8_pair_xor]
  intro he
  refine crc8Update_twoBits_ne_zero j hj k hk hjk ((BitVec.xor_right_inj (crc8 [g0, g1])).mp ?_)
  rw [BitVec.xor_zero, ← he]

/-- Settles O46: a flipped bit is a changed byte, which the fold cannot absorb into the same value; two
flipped data bits are a pattern that does not cancel. -/
theorem checksumDetectsSingleBitErrors : Obligations.ChecksumDetectsSingleBitErrors := by
  unfold Obligations.ChecksumDetectsSingleBitErrors
  refine ⟨fun pre post x k hk => crc8_ne_of_ne pre post (xor_twoPow_ne hk),
    fun g0 g1 k hk => ?_, fun g0 g1 j k => groupPasses_twoBits g0 g1⟩
  simp only [groupPasses_eq_false_iff]
  have hfirst := crc8_ne_of_ne [] [g1] (xor_twoPow_ne (x := g0) hk)
  have hsecond := crc8_ne_of_ne [g0] [] (xor_twoPow_ne (x := g1) hk)
  exact ⟨hfirst.symm, hsecond.symm, xor_twoPow_ne hk⟩

end Sys2Proof.Machine
end

section
/-! ### `decode_words` by positions, and the errors it detects (R121 to R128)

A list that decodes is the encoding of its words, and a list that fails its checks has a group that
fails. A group's checksum is injective in each data byte, so no change of one byte passes. -/

namespace Sys2Proof.Machine

/-! #### The groups of a byte list -/

/-- Group `j` of a byte list is the three bytes `g0 g1 g2`. -/
def GroupAt (bytes : List Byte) (j : Nat) (g0 g1 g2 : Byte) : Prop :=
  bytes[3 * j]? = some g0 ∧ bytes[3 * j + 1]? = some g1 ∧ bytes[3 * j + 2]? = some g2

variable {bytes : List Byte} {ws : List Word} {n j : Nat} {g0 g1 g2 x0 x1 x2 : Byte}

@[simp] theorem groupAt_cons_zero :
    GroupAt (x0 :: x1 :: x2 :: bytes) 0 g0 g1 g2 ↔ x0 = g0 ∧ x1 = g1 ∧ x2 = g2 := by
  simp [GroupAt]

@[simp] theorem groupAt_cons_succ :
    GroupAt (x0 :: x1 :: x2 :: bytes) (j + 1) g0 g1 g2 ↔ GroupAt bytes j g0 g1 g2 := by
  simp [GroupAt, Nat.mul_succ]

theorem GroupAt.lt_of_length (h : GroupAt bytes j g0 g1 g2) (hlen : bytes.length = 3 * n) :
    j < n := by
  obtain ⟨-, -, h2⟩ := h
  obtain ⟨hlt, -⟩ := List.getElem?_eq_some_iff.mp h2
  omega

theorem GroupAt.unique {a0 a1 a2 : Byte} (h : GroupAt bytes j g0 g1 g2)
    (h' : GroupAt bytes j a0 a1 a2) : g0 = a0 ∧ g1 = a1 ∧ g2 = a2 := by
  simp_all [GroupAt]

/-- Group `j` of an encoded frame is the group of word `j` (R126). -/
theorem groupAt_encodeWords {w : Word} (hw : ws[j]? = some w) :
    GroupAt (encodeWords ws) j (wordHi w) (wordLo w) (crc8 [wordHi w, wordLo w]) := by
  have hbyte {k : Nat} (hk : k < 3) : (encodeWords ws)[3 * j + k]? = (wordGroup w)[k]? := by
    rw [encodeWords_getElem? ws j hk, hw, Option.bind_some]
  exact ⟨hbyte (k := 0) (by decide), hbyte (k := 1) (by decide), hbyte (k := 2) (by decide)⟩

@[simp] theorem encodeWords_cons (w : Word) (ws : List Word) :
    encodeWords (w :: ws) =
      wordHi w :: wordLo w :: crc8 [wordHi w, wordLo w] :: encodeWords ws := rfl

theorem encodeWords_length (ws : List Word) : (encodeWords ws).length = 3 * ws.length := by
  simp [encodeWords, wordGroup, groupBytes, List.length_flatMap, Nat.mul_comm]

theorem groupWords_encodeWords (ws : List Word) : groupWords (encodeWords ws) = some ws := by
  induction ws with
  | nil => rfl
  | cons w ws ih => simp [groupWords, ih]

/-- Whole groups that all match are the encoding of their words (R122, R124, R126). -/
theorem encodeWords_of_groupWords (hlen : 3 ∣ bytes.length) (h : groupWords bytes = some ws) :
    bytes = encodeWords ws := by
  induction bytes using groupWords.induct generalizing ws with
  | case1 x0 x1 x2 rest hp ih =>
    have hrest : 3 ∣ rest.length := by simp at hlen; omega
    rw [groupWords, if_pos hp] at h
    obtain ⟨ws', hws, rfl⟩ := Option.map_eq_some_iff.mp h
    simp [(groupPasses_iff x0 x1 x2).mp hp, ih hrest hws]
  | case2 x0 x1 x2 rest hp => simp [groupWords, hp] at h
  | case3 =>
    obtain rfl : [] = ws := by simpa [groupWords] using h
    rfl
  | case4 | case5 => simp at hlen

/-- The words are refused exactly when some group differs from its checksum (R124). -/
theorem groupWords_eq_none_iff :
    groupWords bytes = none ↔ ∃ j g0 g1 g2, GroupAt bytes j g0 g1 g2 ∧ g2 ≠ crc8 [g0, g1] := by
  induction bytes using groupWords.induct with
  | case1 x0 x1 x2 rest hp ih =>
    rw [groupWords, if_pos hp, Option.map_eq_none_iff, ih,
      ← Nat.or_exists_add_one (p := fun j => ∃ g0 g1 g2,
        GroupAt (x0 :: x1 :: x2 :: rest) j g0 g1 g2 ∧ g2 ≠ crc8 [g0, g1])]
    simp [(groupPasses_iff x0 x1 x2).mp hp]
  | case2 x0 x1 x2 rest hp =>
    rw [groupWords, if_neg hp]
    exact iff_of_true rfl ⟨0, x0, x1, x2, groupAt_cons_zero.mpr ⟨rfl, rfl, rfl⟩, by simpa using hp⟩
  | case3 | case4 | case5 => simp [groupWords, GroupAt]

/-! #### The three results -/

theorem decodeWords_eq_lengthFailure_iff :
    decodeWords bytes n = .lengthFailure ↔ bytes.length ≠ 3 * n := by
  unfold decodeWords
  split
  · cases groupWords bytes <;> simpa
  · simpa

theorem decodeWords_eq_checksumFailure_iff :
    decodeWords bytes n = .checksumFailure ↔ bytes.length = 3 * n ∧
      ∃ j g0 g1 g2, GroupAt bytes j g0 g1 g2 ∧ g2 ≠ crc8 [g0, g1] := by
  rw [← groupWords_eq_none_iff, decodeWords]
  split
  · cases groupWords bytes <;> simp_all
  · simp_all

/-- `encode_words` and `decode_words` are inverse to each other (R127). -/
theorem decodeWords_eq_words_iff :
    decodeWords bytes n = .words ws ↔ ws.length = n ∧ bytes = encodeWords ws := by
  have hsuccess : decodeWords bytes n = .words ws ↔
      bytes.length = 3 * n ∧ groupWords bytes = some ws := by
    unfold decodeWords
    split
    · cases groupWords bytes <;> simp_all
    · simp_all
  rw [hsuccess]
  constructor
  · rintro ⟨hlen, hws⟩
    obtain rfl := encodeWords_of_groupWords ⟨n, hlen⟩ hws
    exact ⟨by rw [encodeWords_length] at hlen; omega, rfl⟩
  · rintro ⟨rfl, rfl⟩
    exact ⟨encodeWords_length ws, groupWords_encodeWords ws⟩

theorem decodeWords_encodeWords (ws : List Word) :
    decodeWords (encodeWords ws) ws.length = .words ws :=
  decodeWords_eq_words_iff.mpr ⟨rfl, rfl⟩

theorem length_of_decodeWords (hd : decodeWords bytes n = .words ws) : bytes.length = 3 * n := by
  obtain ⟨rfl, rfl⟩ := decodeWords_eq_words_iff.mp hd
  exact encodeWords_length ws

/-- Every group of a list that decodes matches, and its data bytes are the word's (R124). -/
theorem groupAt_of_decodeWords (hd : decodeWords bytes n = .words ws) (hj : j < n) :
    ∃ g0 g1, GroupAt bytes j g0 g1 (crc8 [g0, g1]) ∧ ws[j]? = some (g0 ++ g1) := by
  obtain ⟨rfl, rfl⟩ := decodeWords_eq_words_iff.mp hd
  have hw := List.getElem?_eq_getElem hj
  exact ⟨_, _, groupAt_encodeWords hw, by rw [wordHi_append_wordLo]; exact hw⟩

/-- A list of whole groups that all match, each with its entry of `ws`, decodes to `ws` (R124). -/
theorem decodeWords_of_groupAt (hlen : bytes.length = 3 * n) (hws : ws.length = n)
    (h : ∀ j < n, ∃ g0 g1, GroupAt bytes j g0 g1 (crc8 [g0, g1]) ∧ ws[j]? = some (g0 ++ g1)) :
    decodeWords bytes n = .words ws := by
  cases hd : decodeWords bytes n with
  | lengthFailure => exact absurd hlen (decodeWords_eq_lengthFailure_iff.mp hd)
  | checksumFailure =>
    obtain ⟨-, j, a0, a1, a2, ha, hne⟩ := decodeWords_eq_checksumFailure_iff.mp hd
    obtain ⟨g0, g1, hg, -⟩ := h j (ha.lt_of_length hlen)
    obtain ⟨rfl, rfl, rfl⟩ := ha.unique hg
    exact absurd rfl hne
  | words ws' =>
    obtain ⟨hws', -⟩ := decodeWords_eq_words_iff.mp hd
    congr 1
    refine List.ext_getElem? fun j => ?_
    by_cases hj : j < n
    · obtain ⟨a0, a1, ha, hw'⟩ := groupAt_of_decodeWords hd hj
      obtain ⟨g0, g1, hg, hw⟩ := h j hj
      obtain ⟨rfl, rfl, -⟩ := ha.unique hg
      rw [hw, hw']
    · rw [List.getElem?_eq_none (by omega), List.getElem?_eq_none (by omega)]

/-- Settles O50: the three results, with the bytes of the groups read at their indices. -/
theorem decodeWordsByPositions : Obligations.DecodeWordsByPositions := by
  unfold Obligations.DecodeWordsByPositions
  intro bytes n
  refine ⟨decodeWords_eq_lengthFailure_iff, ?_, fun ws => ⟨fun hd => ?_, fun ⟨hlen, hws, h⟩ => ?_⟩⟩
  · rw [decodeWords_eq_checksumFailure_iff]
    refine and_congr_right fun hlen => ⟨?_, ?_⟩
    · rintro ⟨j, g0, g1, g2, hg, hne⟩
      have hj := hg.lt_of_length hlen
      obtain ⟨h0, h1, h2⟩ := hg
      exact ⟨j, g0, g1, g2, hj, h0, h1, h2, hne⟩
    · rintro ⟨j, g0, g1, g2, -, h0, h1, h2, hne⟩
      exact ⟨j, g0, g1, g2, ⟨h0, h1, h2⟩, hne⟩
  · refine ⟨length_of_decodeWords hd, (decodeWords_eq_words_iff.mp hd).1, fun j hj => ?_⟩
    obtain ⟨g0, g1, ⟨h0, h1, h2⟩, hw⟩ := groupAt_of_decodeWords hd hj
    exact ⟨g0, g1, h0, h1, h2, hw⟩
  · refine decodeWords_of_groupAt hlen hws fun j hj => ?_
    obtain ⟨g0, g1, h0, h1, h2, hw⟩ := h j hj
    exact ⟨g0, g1, ⟨h0, h1, h2⟩, hw⟩

/-! #### Corrupted frames -/

/-- In a frame that decodes, no change of one byte passes: its group's checksum is injective in each
of its bytes (R105 c, R128). -/
theorem decodeWords_set_of_ne {y : Byte} (hd : decodeWords bytes n = .words ws) (hj : j < 3 * n)
    (hy : bytes[j]? ≠ some y) : decodeWords (bytes.set j y) n = .checksumFailure := by
  obtain ⟨q, hq, hr⟩ : ∃ q < n, j = 3 * q ∨ j = 3 * q + 1 ∨ j = 3 * q + 2 :=
    ⟨j / 3, by omega, by omega⟩
  obtain ⟨g0, g1, ⟨h0, h1, h2⟩, -⟩ := groupAt_of_decodeWords hd hq
  have hlen := length_of_decodeWords hd
  have hset : (bytes.set j y)[j]? = some y := List.getElem?_set_self (hlen ▸ hj)
  have hother {k : Nat} {x : Byte} (hk : j ≠ k) (hx : bytes[k]? = some x) :
      (bytes.set j y)[k]? = some x := (List.getElem?_set_ne hk).trans hx
  refine decodeWords_eq_checksumFailure_iff.mpr ⟨by simpa using hlen, q, ?_⟩
  rcases hr with rfl | rfl | rfl
  · exact ⟨y, g1, _, ⟨hset, hother (by omega) h1, hother (by omega) h2⟩,
      crc8_ne_of_ne [] [g1] fun h => hy (h ▸ h0)⟩
  · exact ⟨g0, y, _, ⟨hother (by omega) h0, hset, hother (by omega) h2⟩,
      crc8_ne_of_ne [g0] [] fun h => hy (h ▸ h1)⟩
  · exact ⟨g0, g1, y, ⟨hother (by omega) h0, hother (by omega) h1, hset⟩, fun h => hy (h ▸ h2)⟩

/-- Settles O53: each corruption is a change of one byte. -/
theorem corruptedFramesAreRejected : Obligations.CorruptedFramesAreRejected := by
  unfold Obligations.CorruptedFramesAreRejected
  refine ⟨fun bytes n hlen => ?_, fun bytes n j ws c hd hj hc => ?_,
    fun bytes n j k ws b hd hb hk => ?_⟩
  · exact decodeWords_eq_lengthFailure_iff.mpr (by omega)
  · exact decodeWords_set_of_ne hd (by omega) hc
  · have hj := (List.getElem?_eq_some_iff.mp hb).1
    refine decodeWords_set_of_ne hd (length_of_decodeWords hd ▸ hj) ?_
    rw [hb, ne_eq, Option.some.injEq, eq_comm]
    exact xor_twoPow_ne hk

end Sys2Proof.Machine
end

section
/-! ### A frame run on the block is `decode_words` (R127, R133, R135)

`Block.InFrame` is the simulation relation: WD.START establishes it with no bytes, WD.BYTE extends the
bytes, the other commands a frame allows keep it, and WD.END reads the verdict off it. A failed frame
leaves no valid result, and only a WD.END that responds OK makes one. -/

namespace Sys2Proof.Machine

variable {s t u : State} {b b' : Block} {i : Instr} {cs : List Instr} {c : Code} {d : BitVec 32}
  {n : Byte} {xs : List Byte} {tr : List (Instr × Response)}

/-! #### The commands inside a frame -/

/-- A command that R133 allows between the bytes has an effect in every state, and writes nothing but
`crc` and `fvalid`. -/
theorem exists_effect_of_sparesFrame (hi : sparesFrame i = true) (b : Block) :
    ∃ x v c d, Effect b i { b with crc := x, fvalid := v } c d := by
  cases i with
  | nop => exact ⟨_, _, _, _, .nop⟩
  | crcInit => exact ⟨_, _, _, _, .crcInit⟩
  | crcUpd x => exact ⟨_, _, _, _, .crcUpd x⟩
  | crcGet => exact ⟨_, _, _, _, .crcGet⟩
  | crcChk x =>
    by_cases h : b.crc = x
    · exact ⟨_, _, _, _, .crcChkOk x h⟩
    · exact ⟨_, _, _, _, .crcChkBad x h⟩
  | mdRdf k =>
    cases hv : b.fvalid with
    | false => exact ⟨_, _, _, _, .mdRdfNores k hv⟩
    | true =>
      by_cases hk : k.toNat < 10
      · exact ⟨_, _, _, _, .mdRdf k hv hk⟩
      · exact ⟨_, _, _, _, .mdRdfIdx k hv (Nat.le_of_not_lt hk)⟩
  | mdInv => exact ⟨_, _, _, _, .mdInv⟩
  | stat => exact ⟨_, _, _, _, .stat⟩
  | reservedD => exact ⟨_, _, _, _, .reservedD⟩
  | reservedE => exact ⟨_, _, _, _, .reservedE⟩
  | reservedF => exact ⟨_, _, _, _, .reservedF⟩
  | wdStart | wdByte | wdEnd | wdRdw | mdConv => simp [sparesFrame] at hi

/-- What the frame has received does not involve `crc` and `fvalid` (R29, R133). -/
theorem Block.InFrame.with_crc_fvalid (h : b.InFrame n xs) (x : Byte) (v : Bool) :
    Block.InFrame { b with crc := x, fvalid := v } n xs := by
  obtain ⟨ho, hexp, hfits, hr, hlong⟩ := h
  exact ⟨ho, hexp, hfits, hr, hlong⟩

/-- Every command that may stand inside a frame completes there, and its byte is received. -/
theorem Block.InFrame.exists_inside (h : b.InFrame n xs) (hi : insideFrame i = true) :
    ∃ b' c d, Effect b i b' c d ∧ b'.InFrame n (xs ++ frameBytes [i]) := by
  cases hbyte : frameByte i with
  | some x =>
    obtain rfl : i = .wdByte x := by cases i <;> simp_all [frameByte]
    obtain ⟨b', he, hb'⟩ := h.exists_byte x
    exact ⟨b', _, _, he, hb'⟩
  | none =>
    have hspares : sparesFrame i = true := by simpa [insideFrame, hbyte] using hi
    obtain ⟨x, v, c, d, he⟩ := exists_effect_of_sparesFrame hspares b
    exact ⟨_, c, d, he, by simpa [frameBytes, hbyte] using h.with_crc_fvalid x v⟩

/-- A list of such commands runs, and all its bytes are received. -/
theorem Block.InFrame.execTrace_inside (h : s.block.InFrame n xs)
    (hcs : ∀ i ∈ cs, insideFrame i = true) :
    ∃ t tr, execTrace cs s = .next (t, tr) ∧ t.block.InFrame n (xs ++ frameBytes cs) := by
  induction cs generalizing s xs with
  | nil => exact ⟨s, [], rfl, by simpa [frameBytes] using h⟩
  | cons i cs ih =>
    obtain ⟨hi, hrest⟩ := List.forall_mem_cons.mp hcs
    obtain ⟨b', c, d, he, hb'⟩ := h.exists_inside hi
    obtain ⟨t, tr, hrun, ht⟩ := ih (s := s.after b' c d) hb' hrest
    refine ⟨t, _, he.execTrace_cons hrun, ?_⟩
    rw [← List.singleton_append, frameBytes_append, ← List.append_assoc]
    exact ht

/-! #### Where a valid result can come from -/

/-- Only a WD.END that responds OK makes a result valid (R33). -/
theorem execTrace_wvalid_false (hrun : execTrace cs s = .next (t, tr))
    (hv : s.block.wvalid = false) (hend : ∀ p ∈ tr, p.1 = .wdEnd → p.2.code ≠ .ok) :
    t.block.wvalid = false := by
  induction cs generalizing s tr with
  | nil =>
    obtain ⟨rfl, -⟩ : s = t ∧ [] = tr := by simpa using hrun
    exact hv
  | cons i cs ih =>
    obtain ⟨u, r, tr', hexec, hr, hrest, rfl⟩ := execTrace_cons_eq_next.mp hrun
    obtain ⟨hfirst, hothers⟩ := List.forall_mem_cons.mp hend
    obtain ⟨b, c, d, he, rfl⟩ := exec_next_effect hexec
    obtain rfl := Option.some.inj hr
    refine ih hrest ?_ hothers
    rw [after_block, ← Bool.not_eq_true, he.wvalid_iff]
    simpa [hv] using hfirst

/-- Where no result is valid, none is until a WD.END responds OK (R133 d). -/
theorem noPartialResult_of_wvalid_false (hv : u.block.wvalid = false) : NoPartialResult u := by
  intro ds v tr hrun hend
  have hv' := execTrace_wvalid_false hrun hv hend
  exact ⟨fun k => (Effect.wdRdwNores k hv').exec_eq, (Effect.mdConvNores (.inl hv')).exec_eq⟩

/-! #### The end of the frame -/

/-- A WD.END that responds OK leaves the words that the received bytes decode to (R133 a). -/
theorem Block.InFrame.result_of_ok_end (h : b.InFrame n xs) (he : Effect b .wdEnd b' .ok d) :
    b'.wvalid = true ∧ b'.wcount = n ∧
      decodeWords xs n.toNat = .words (b'.W.take n.toNat) := by
  obtain rfl := h.expect
  cases he with
  | wdEndOk _ hl hc => exact ⟨rfl, rfl, h.received.decodeWords_eq hl hc⟩

/-- A word of the valid result reads back (R132). -/
theorem exec_wdRdw_of_take {ws : List Word} {k : Byte} {w : Word} (hv : u.block.wvalid = true)
    (hcount : u.block.wcount = n) (hws : u.block.W.take n.toNat = ws)
    (hw : ws[k.toNat]? = some w) :
    exec (.wdRdw k) u = .next (u.after u.block .ok (w.zeroExtend 32)) := by
  obtain ⟨hk, hw⟩ : k.toNat < n.toNat ∧ u.block.W[k.toNat]? = some w := by
    subst hws
    simpa [List.getElem?_take] using hw
  exact (Effect.wdRdw k w hv (hcount ▸ hk) hw).exec_eq

/-- Settles O54: the frame simulates `decode_words` up to WD.END, which answers its verdict. -/
theorem frameRunRefinesDecodeWords : Obligations.FrameRunRefinesDecodeWords := by
  unfold Obligations.FrameRunRefinesDecodeWords
  intro s n cs hn hcs
  have hstart := Effect.wdStart (b := s.block) n hn
  obtain ⟨t, tr, hrun, ht⟩ := Block.InFrame.execTrace_inside (s := s.after _ .ok 0#32)
    (inFrame_start hn) hcs
  have hv : t.block.wvalid = false := by
    refine execTrace_wvalid_false hrun rfl fun p hp hend => ?_
    have hmem : p.1 ∈ cs := execTrace_fst hrun ▸ List.mem_map_of_mem hp
    exact absurd (hend ▸ hcs _ hmem) nofun
  rw [List.nil_append] at ht
  obtain ⟨b', c, d, hend, hverdict⟩ := ht.exists_end
  have hfailed : c ≠ .ok → NoPartialResult (t.after b' c d) := fun hc =>
    noPartialResult_of_wvalid_false ((hend.wvalid_of_failed_end hc).trans hv)
  refine ⟨t, _, _, hstart.execTrace_cons hrun, hend.exec_eq, ?_⟩
  rcases hverdict with ⟨hd, rfl, rfl⟩ | ⟨hd, rfl, rfl⟩ | ⟨ws, hd, rfl, rfl⟩
  · simp [hd, hfailed]
  · simp [hd, hfailed]
  · obtain ⟨hvalid, hcount, hwords⟩ := ht.result_of_ok_end hend
    obtain rfl := DecodeResult.words.inj (hwords.symm.trans hd)
    simp only [hd, DecodeResult.words.injEq, reduceCtorEq, false_implies, and_true]
    rintro _ rfl
    exact ⟨rfl, hvalid, hcount, fun k w => exec_wdRdw_of_take hvalid hcount rfl⟩

/-! #### A frame of bytes alone -/

theorem frameBytes_map_wdByte (xs : List Byte) : frameBytes (xs.map .wdByte) = xs := by
  simp [frameBytes, List.filterMap_map, Function.comp_def, frameByte]

/-- Settles O51: the frame of the encoded list is a frame that decodes to it. -/
theorem decodeOfEncodedWordsIsIdentity : Obligations.DecodeOfEncodedWordsIsIdentity := by
  unfold Obligations.DecodeOfEncodedWordsIsIdentity
  refine ⟨fun ws => ⟨encodeWords_length ws, decodeWords_encodeWords ws⟩, fun s n ws hlen hn => ?_⟩
  obtain ⟨t, tr, u, hrun, hend, hgood, -⟩ := frameRunRefinesDecodeWords s n
    ((encodeWords ws).map .wdByte) hn (by simp [insideFrame, frameByte])
  rw [frameBytes_map_wdByte] at hgood
  obtain ⟨hrsp, hresult⟩ := hgood ws (hlen ▸ decodeWords_encodeWords ws)
  obtain ⟨b, c, d, he, rfl⟩ := exec_next_effect hend
  exact ⟨_, _, he.execTrace_snoc hrun, hrsp, hresult⟩

/-- A byte of an open frame that completes is answered OK with no data (R135). -/
theorem Effect.ok_of_open_byte {x : Byte} (h : Effect b (.wdByte x) b' c d)
    (ho : b.isOpen = true) : c = .ok ∧ d = 0#32 ∧ b'.isOpen = true := by
  cases h with
  | wdByteSeq _ hclosed => exact absurd (hclosed.symm.trans ho) nofun
  | wdByteOver | wdByte0 | wdByte1 | wdByte2 => exact ⟨rfl, rfl, ho⟩

/-- Settles O41, by induction over the bytes: each keeps R40 and the frame open. -/
theorem bytesOfAFrameAreAnsweredAlike : Obligations.BytesOfAFrameAreAnsweredAlike := by
  unfold Obligations.BytesOfAFrameAreAnsweredAlike
  intro s xs hs ho
  induction xs generalizing s with
  | nil => exact ⟨s, rfl, ho⟩
  | cons x xs ih =>
    obtain ⟨b, c, d, he⟩ := hs.exists_effect (.wdByte x)
    obtain ⟨rfl, rfl, hb⟩ := he.ok_of_open_byte ho
    obtain ⟨t, hrun, ht⟩ := ih (s.after b .ok 0#32) (he.keeps_inv hs) hb
    exact ⟨t, he.execTrace_cons hrun, ht⟩

/-! #### The commands one by one -/

/-- Settles O6: the two outcomes of the capacity test are two effects. -/
theorem wdStartOpensFrameOrRefuses : Obligations.WdStartOpensFrameOrRefuses := by
  unfold Obligations.WdStartOpensFrameOrRefuses
  refine ⟨decode_joinBeat 0x5#4, rfl, fun n s hn => (Effect.wdStartCap n hn).exec_eq,
    fun n s hn => (Effect.wdStart n hn).exec_eq, fun s t hf hexec hrsp => ?_⟩
  rcases exec_wdStart_cases hexec with ⟨-, rfl⟩ | ⟨-, rfl⟩
  · cases hrsp
  · simp [statusWord, hf, Verdict.toBits, Verdict.toCode, Code.toBits]

/-- Settles O7: the byte's five outcomes are five effects. -/
theorem wdBytePushesNextByte : Obligations.WdBytePushesNextByte := by
  unfold Obligations.WdBytePushesNextByte
  exact ⟨decode_joinBeat 0x6#4, rfl, fun x s ho => (Effect.wdByteSeq x ho).exec_eq,
    fun x s ho hg => (Effect.wdByteOver x ho hg).exec_eq,
    fun x s ho hg hp => (Effect.wdByte0 x ho hg hp).exec_eq,
    fun x s ho hg hp => (Effect.wdByte1 x ho hg hp).exec_eq,
    fun x s ho hg hp hi => (Effect.wdByte2 x ho hg hp hi).exec_eq,
    fun b hb hg => (hb.gidx_lt hg).2⟩

/-- Settles O8: the length test spelled out, and the four outcomes as four effects. -/
theorem wdEndGivesVerdict : Obligations.WdEndGivesVerdict := by
  unfold Obligations.WdEndGivesVerdict
  refine ⟨decode_joinBeat 0x7#4, rfl, fun s ho => (Effect.wdEndSeq ho).exec_eq,
    fun s ho hlen => ?_, fun s ho hover hp hg hc => ?_, fun s ho hover hp hg hc => ?_⟩
  · have hl : frameLengthOk s.block = false := by
      rw [← Bool.not_eq_true, frameLengthOk_iff]
      rintro ⟨hover, hp, hg⟩
      simp [hover, hp, hg] at hlen
    exact (Effect.wdEndLen ho hl).exec_eq
  · exact (Effect.wdEndCrc ho ((frameLengthOk_iff _).mpr ⟨hover, hp, hg⟩) hc).exec_eq
  · exact (Effect.wdEndOk ho ((frameLengthOk_iff _).mpr ⟨hover, hp, hg⟩) hc).exec_eq

/-- Settles O9: the three outcomes are three effects; a valid result lies inside W, and none is valid
while a frame is open or after one failed, where R40 holds. -/
theorem wdRdwReadsWord : Obligations.WdRdwReadsWord := by
  unfold Obligations.WdRdwReadsWord
  refine ⟨decode_joinBeat 0x8#4, rfl, rfl, fun i s hv => (Effect.wdRdwNores i hv).exec_eq,
    fun i s hv hi => (Effect.wdRdwIdx i hv hi).exec_eq,
    fun i s w hv hi hw => (Effect.wdRdw i w hv hi hw).exec_eq,
    fun i b hb hv hi => ⟨_, List.getElem?_eq_getElem (hi.trans_le (hb.wcount_le hv))⟩,
    fun b hb h => ?_, resetBlock_wvalid⟩
  rcases h with ho | hcode
  · exact (hb.open_clears ho).1
  · exact (hb.failed_closed hcode).2

end Sys2Proof.Machine
end

section
/-! ### The measurement: MD.CONV, MD.RDF and MD.INV (R151 to R160)

A good frame of twenty words leaves a block that `Block.HoldsWords` them, which every command but an
accepted WD.START keeps; MD.CONV turns it into one that `Block.HoldsMeasurement`, which every command
but a successful MD.CONV and MD.INV keeps; and MD.RDF reads that off. -/

namespace Sys2Proof.Machine

/-! #### The words of a pattern -/

/-- Pattern `i` of the conversion joins words `2i` and `2i + 1`, earlier word high (R151). -/
theorem decodeMeasurement_getElem (ws : Vector Word 20) (i : Nat) (h : i < 10) :
    (decodeMeasurement ws)[i] = ws[2 * i] ++ ws[2 * i + 1] := by
  simp [decodeMeasurement]

/-- The two words of a pattern, earlier word first (R53, R76). -/
def patternWords (p : Pattern) : List Word := [patternHi p, patternLo p]

/-- The twenty words that the frame of ten patterns carries (R78). -/
def measurementWords (ps : Vector Pattern 10) : Vector Word 20 :=
  ⟨(ps.toList.flatMap patternWords).toArray, by simp [patternWords, List.length_flatMap]⟩

theorem measurementWords_getElem? (ps : Vector Pattern 10) (i : Nat) {j : Nat} (hj : j < 2) :
    (measurementWords ps)[2 * i + j]? = ps[i]?.bind fun p => (patternWords p)[j]? := by
  simpa [measurementWords] using
    getElem?_flatMap_of_length (f := patternWords) (fun _ => rfl) ps.toList i hj

/-- A measurement frame is the encoding of its words: a float cell is two groups (R76, R126). -/
theorem measurementFrame_eq_encodeWords (ps : Vector Pattern 10) :
    measurementFrame ps = encodeWords (measurementWords ps).toList := by
  have hcell : floatCell = fun p => (patternWords p).flatMap wordGroup := rfl
  rw [measurementFrame, hcell]
  exact List.flatMap_assoc.symm

/-- The conversion joins the words of each pattern back to the pattern (R153). -/
theorem decodeMeasurement_measurementWords (ps : Vector Pattern 10) :
    decodeMeasurement (measurementWords ps) = ps := by
  refine Vector.ext fun i hi => ?_
  have hhi : (measurementWords ps)[2 * i]? = some (patternHi ps[i]) := by
    simpa [patternWords, hi] using measurementWords_getElem? ps i (j := 0) (by decide)
  have hlo : (measurementWords ps)[2 * i + 1]? = some (patternLo ps[i]) := by
    simpa [patternWords, hi] using measurementWords_getElem? ps i (j := 1) (by decide)
  rw [decodeMeasurement_getElem _ i hi, (Vector.getElem?_eq_some_iff.mp hhi).2,
    (Vector.getElem?_eq_some_iff.mp hlo).2, patternHi_append_patternLo]

/-- Settles O56: words `2i` and `2i + 1` are the data bytes of groups `2i` and `2i + 1`. -/
theorem measurementByWordsAndBytes : Obligations.MeasurementByWordsAndBytes := by
  unfold Obligations.MeasurementByWordsAndBytes
  refine ⟨decodeMeasurement_getElem, fun fr ws i hi hd => ?_⟩
  obtain ⟨a, b, ⟨ha, hb, -⟩, hhi⟩ := groupAt_of_decodeWords hd (j := 2 * i) (by omega)
  obtain ⟨c, d, ⟨hc, hd', -⟩, hlo⟩ := groupAt_of_decodeWords hd (j := 2 * i + 1) (by omega)
  rw [show 3 * (2 * i) = 6 * i by omega] at ha hb
  rw [show 3 * (2 * i + 1) = 6 * i + 3 by omega] at hc hd'
  have hhi : ws[2 * i] = a ++ b := by simpa using (List.getElem?_eq_some_iff.mp hhi).2
  have hlo : ws[2 * i + 1] = c ++ d := by simpa using (List.getElem?_eq_some_iff.mp hlo).2
  refine ⟨a, b, c, d, ha, hb, hc, hd', ?_⟩
  rw [decodeMeasurement_getElem ws i hi, hhi, hlo]
  exact (BitVec.append_assoc (x₁ := a ++ b) (x₂ := c) (x₃ := d)).symm

/-! #### The commands one by one -/

theorem getElem?_of_toList_eq_take {n k : Nat} {ws : Vector Word n} {l : List Word}
    (h : ws.toList = l.take n) (hk : k < n) : l[k]? = some ws[k] := by
  rw [← List.getElem?_take_of_lt hk, ← h]
  simp [hk]

/-- Settles O10: the refusal and the conversion are two effects, and W has the twenty entries. -/
theorem mdConvConvertsTwentyWords : Obligations.MdConvConvertsTwentyWords := by
  unfold Obligations.MdConvConvertsTwentyWords
  refine ⟨decode_joinBeat 0x9#4, fun s h => (Effect.mdConvNores h).exec_eq,
    fun s hv hc hcap => ?_, fun b hb => hb.wcap_ge⟩
  obtain ⟨ws, -, hws⟩ := firstEntries_of_le hcap
  refine ⟨decodeMeasurement ws, fun i hi => ?_, (Effect.mdConv ws hv hc hws).exec_eq⟩
  exact ⟨_, _, getElem?_of_toList_eq_take hws (by omega),
    getElem?_of_toList_eq_take hws (by omega), decodeMeasurement_getElem ws i hi⟩

/-- Settles O11: the three outcomes are three effects. -/
theorem mdRdfReadsFloatRegister : Obligations.MdRdfReadsFloatRegister := by
  unfold Obligations.MdRdfReadsFloatRegister
  exact ⟨decode_joinBeat 0xA#4, fun i s hv => (Effect.mdRdfNores i hv).exec_eq,
    fun i s hv hi => (Effect.mdRdfIdx i hv hi).exec_eq,
    fun i s hv hi => (Effect.mdRdf i hv hi).exec_eq⟩

/-- Settles O12: the command has one effect, in every state. -/
theorem mdInvClearsValidFlag : Obligations.MdInvClearsValidFlag := by
  unfold Obligations.MdInvClearsValidFlag
  exact ⟨decode_joinBeat 0xB#4, fun _ => Effect.mdInv.exec_eq⟩

/-! #### What a run keeps -/

variable {s t : State} {b b' : Block} {i : Instr} {cs : List Instr} {c : Code} {d : BitVec 32}
  {n : Byte} {xs : List Byte} {ws : List Word} {ps : Vector Pattern 10}
  {tr : List (Instr × Response)}

/-- The induction over a run with its responses: what every command keeps, given what it answered,
holds at the end. -/
theorem execTrace_keeps {P : Block → Prop} {Q : Instr → Code → Prop}
    (hstep : ∀ {b i b' c d}, Effect b i b' c d → Q i c → P b → P b')
    (hrun : execTrace cs s = .next (t, tr)) (hs : P s.block) (hQ : ∀ p ∈ tr, Q p.1 p.2.code) :
    P t.block := by
  induction cs generalizing s tr with
  | nil =>
    obtain ⟨rfl, -⟩ : s = t ∧ [] = tr := by simpa using hrun
    exact hs
  | cons i cs ih =>
    obtain ⟨u, r, tr', hexec, hr, hrest, rfl⟩ := execTrace_cons_eq_next.mp hrun
    obtain ⟨hfirst, hothers⟩ := List.forall_mem_cons.mp hQ
    obtain ⟨b, c, d, he, rfl⟩ := exec_next_effect hexec
    obtain rfl := Option.some.inj hr
    exact ih hrest (hstep he hfirst hs) hothers

/-- No frame is open, and the valid result in W is the `n` words `ws`. -/
structure Block.HoldsWords (b : Block) (n : Byte) (ws : List Word) : Prop where
  closed : b.isOpen = false
  wvalid : b.wvalid = true
  wcount : b.wcount = n
  words : b.W.take n.toNat = ws

/-- Only an accepted WD.START gives up a valid result: outside a frame no other command touches it
(R24, R33). -/
theorem Effect.keeps_holdsWords (he : Effect b i b' c d) (hstart : i.op = .wdStart → c ≠ .ok)
    (h : b.HoldsWords n ws) : b'.HoldsWords n ws := by
  cases he with
  | wdStart => exact absurd rfl (hstart rfl)
  | wdByteOver _ ho | wdByte0 _ ho | wdByte1 _ ho | wdByte2 _ ho | wdEndLen ho | wdEndCrc ho
  | wdEndOk ho => exact absurd (h.closed.symm.trans ho) nofun
  | _ => exact { h with }

/-- F holds the valid measurement `ps`. -/
structure Block.HoldsMeasurement (b : Block) (ps : Vector Pattern 10) : Prop where
  fvalid : b.fvalid = true
  registers : b.F = ps

/-- Only MD.INV and an MD.CONV that responds OK give up a valid measurement (R26, R34). -/
theorem Effect.keeps_holdsMeasurement (he : Effect b i b' c d)
    (hi : i ≠ .mdInv ∧ (i = .mdConv → c ≠ .ok)) (h : b.HoldsMeasurement ps) :
    b'.HoldsMeasurement ps := by
  obtain ⟨hinv, hconv⟩ := hi
  cases he with
  | mdConv => exact absurd rfl (hconv rfl)
  | mdInv => exact absurd rfl hinv
  | _ => exact { h with }

/-! #### From the frame to the registers -/

/-- WD.END of an open frame whose bytes decode responds OK and leaves the words (R131, R133 a). -/
theorem Block.InFrame.exists_good_end (h : b.InFrame n xs)
    (hd : decodeWords xs n.toNat = .words ws) :
    ∃ b', Effect b .wdEnd b' .ok (n.zeroExtend 32) ∧ b'.HoldsWords n ws := by
  obtain ⟨b', c, d, he, hverdict⟩ := h.exists_end
  obtain ⟨rfl, rfl⟩ : c = .ok ∧ d = n.zeroExtend 32 := by simpa [hd] using hverdict
  obtain ⟨hvalid, hcount, hwords⟩ := h.result_of_ok_end he
  refine ⟨b', he, ?_, hvalid, hcount, DecodeResult.words.inj (hwords.symm.trans hd)⟩
  rw [← Bool.not_eq_true, he.isOpen_iff]
  simp [Instr.op]

/-- From any state, a frame that fits W and whose bytes decode to `ws` leaves `ws` (R133 a). -/
theorem exists_good_frame (s : State) (hn : n.toNat ≤ s.block.wcap)
    (hcs : ∀ i ∈ cs, insideFrame i = true) (hd : decodeWords (frameBytes cs) n.toNat = .words ws) :
    ∃ t tr b, execTrace (.wdStart n :: cs) s = .next (t, tr) ∧
      Effect t.block .wdEnd b .ok (n.zeroExtend 32) ∧ b.HoldsWords n ws := by
  obtain ⟨t, tr, hrun, ht⟩ := Block.InFrame.execTrace_inside (s := s.after _ .ok 0#32)
    (inFrame_start hn) hcs
  obtain ⟨b, he, hb⟩ := ht.exists_good_end hd
  exact ⟨t, _, b, (Effect.wdStart n hn).execTrace_cons hrun, he, hb⟩

/-- MD.CONV on twenty valid words responds OK and leaves their measurement (R157). -/
theorem Block.HoldsWords.exists_conversion {ws : Vector Word 20}
    (h : b.HoldsWords 20#8 ws.toList) :
    ∃ b', Effect b .mdConv b' .ok 0#32 ∧ b'.HoldsMeasurement (decodeMeasurement ws) :=
  ⟨_, .mdConv ws h.wvalid h.wcount h.words.symm, rfl, rfl⟩

/-- MD.RDF reads the measurement that F holds (R158). -/
theorem Block.HoldsMeasurement.exec_mdRdf (h : s.block.HoldsMeasurement ps) (k : Byte)
    (hk : k.toNat < 10) :
    exec (.mdRdf k) s = .next (s.after s.block .ok ps[k.toNat]) := by
  obtain ⟨hv, rfl⟩ := h
  exact (Effect.mdRdf k hv hk).exec_eq

/-- Settles O57: the words survive up to MD.CONV, and the measurement up to MD.RDF. -/
theorem conversionRefinesDecodeMeasurement : Obligations.ConversionRefinesDecodeMeasurement := by
  unfold Obligations.ConversionRefinesDecodeMeasurement
  intro s t u v cs ds ws tr tr' hcap hcs hd hrun hend hds hstarts
  have hu : u.block.HoldsWords 20#8 ws.toList := by
    obtain ⟨t', _, b, hrun', he, hb⟩ := exists_good_frame (n := 20#8) s hcap hcs hd
    obtain ⟨rfl, -⟩ := Prod.mk.inj (Host.Outcome.next.inj (hrun.symm.trans hrun'))
    rw [next_inj (he.exec_eq.symm.trans hend)]
    exact hb
  have hv := execTrace_keeps Effect.keeps_holdsWords hds hu hstarts
  obtain ⟨b, hconv, hb⟩ := hv.exists_conversion
  refine ⟨_, hconv.exec_eq, rfl, fun es x tr'' hes hothers => ?_⟩
  exact (execTrace_keeps Effect.keeps_holdsMeasurement hes hb hothers).exec_mdRdf

/-- Settles O58: the frame of the patterns is the encoding of their words, which decodes to them. -/
theorem everyMeasurementPassesThroughUnchanged :
    Obligations.EveryMeasurementPassesThroughUnchanged := by
  unfold Obligations.EveryMeasurementPassesThroughUnchanged
  intro s ps hcap
  have hd : decodeWords (frameBytes ((measurementFrame ps).map .wdByte)) 20 =
      .words (measurementWords ps).toList := by
    rw [frameBytes_map_wdByte, measurementFrame_eq_encodeWords]
    exact decodeWords_eq_words_iff.mpr ⟨Vector.length_toList, rfl⟩
  obtain ⟨t, tr, b, hrun, hend, hb⟩ := exists_good_frame (n := 20#8) s hcap
    (by simp [insideFrame, frameByte]) hd
  obtain ⟨b', hconv, hb'⟩ := hb.exists_conversion
  rw [decodeMeasurement_measurementWords] at hb'
  exact ⟨_, _, hconv.execTrace_snoc (hend.execTrace_snoc hrun), rfl, hb'.registers, hb'.exec_mdRdf⟩

end Sys2Proof.Machine
end

section
/-! ### The system commands and the reserved `op` values, the soft reset, and the table of `open`
(R170 to R174, R188)

NOP, STAT and the reserved commands have one effect each. The rows of the table of `open` are the
effects of the three frame commands that write it, sorted by the test each command makes. -/

namespace Sys2Proof.Machine

variable {b b' : Block} {i : Instr} {c : Code} {d : BitVec 32}

/-! #### The table of `open` (R173) -/

/-- WD.START of a frame that fits W opens it, from closed and from open. -/
theorem Effect.open_of_accepted_start (h : Effect b i b' c d) (hi : i.op = .wdStart)
    (hn : i.arg.toNat ≤ b.wcap) : b'.isOpen = true ∧ c = .ok := by
  cases h with
  | wdStart => exact ⟨rfl, rfl⟩
  | wdStartCap _ hcap => exact absurd hn (Nat.not_le.mpr hcap)
  | _ => exact absurd hi nofun

/-- WD.START of a frame that does not fit W is refused. -/
theorem Effect.open_of_too_long_start (h : Effect b i b' c d) (hi : i.op = .wdStart)
    (hn : b.wcap < i.arg.toNat) : b'.isOpen = b.isOpen ∧ c = .eCap := by
  cases h with
  | wdStartCap => exact ⟨rfl, rfl⟩
  | wdStart _ hfits => exact absurd hfits (Nat.not_le.mpr hn)
  | _ => exact absurd hi nofun

/-- A byte inside a frame is answered OK on every path, and the frame stays open. -/
theorem Effect.open_of_byte_inside (h : Effect b i b' c d) (hi : i.op = .wdByte)
    (ho : b.isOpen = true) : b'.isOpen = true ∧ c = .ok := by
  cases h with
  | wdByteOver | wdByte0 | wdByte1 | wdByte2 => exact ⟨ho, rfl⟩
  | wdByteSeq _ hclosed => exact absurd ho (Bool.eq_false_iff.mp hclosed)
  | _ => exact absurd hi nofun

/-- A byte outside a frame is refused. -/
theorem Effect.open_of_byte_outside (h : Effect b i b' c d) (hi : i.op = .wdByte)
    (hclosed : b.isOpen = false) : b'.isOpen = false ∧ c = .eSeq := by
  cases h with
  | wdByteSeq => exact ⟨hclosed, rfl⟩
  | wdByteOver _ ho | wdByte0 _ ho | wdByte1 _ ho | wdByte2 _ ho =>
    exact absurd ho (Bool.eq_false_iff.mp hclosed)
  | _ => exact absurd hi nofun

/-- The end of a frame closes it, with one of the three verdicts. -/
theorem Effect.open_of_end_inside (h : Effect b i b' c d) (hi : i.op = .wdEnd)
    (ho : b.isOpen = true) : b'.isOpen = false ∧ (c = .ok ∨ c = .eLen ∨ c = .eCrc) := by
  cases h with
  | wdEndOk => exact ⟨rfl, .inl rfl⟩
  | wdEndLen => exact ⟨rfl, .inr (.inl rfl)⟩
  | wdEndCrc => exact ⟨rfl, .inr (.inr rfl)⟩
  | wdEndSeq hclosed => exact absurd ho (Bool.eq_false_iff.mp hclosed)
  | _ => exact absurd hi nofun

/-- WD.END outside a frame is refused. -/
theorem Effect.open_of_end_outside (h : Effect b i b' c d) (hi : i.op = .wdEnd)
    (hclosed : b.isOpen = false) : b'.isOpen = false ∧ c = .eSeq := by
  cases h with
  | wdEndSeq => exact ⟨hclosed, rfl⟩
  | wdEndOk ho | wdEndLen ho | wdEndCrc ho => exact absurd ho (Bool.eq_false_iff.mp hclosed)
  | _ => exact absurd hi nofun

/-- Settles O35: one lemma per row of the table; the other commands do not write `open`. -/
theorem frameOpensAndClosesByTheTable : Obligations.FrameOpensAndClosesByTheTable := by
  unfold Obligations.FrameOpensAndClosesByTheTable
  intro i s t r h hr
  obtain ⟨b, c, d, he, rfl⟩ := exec_next_effect h
  obtain rfl : ⟨c, d⟩ = r := Option.some.inj hr
  exact ⟨he.open_of_accepted_start, he.open_of_too_long_start, he.open_of_byte_inside,
    he.open_of_byte_outside, he.open_of_end_inside, he.open_of_end_outside,
    fun hstart _ hend => (he.frame_result_eq hstart hend).1⟩

/-! #### NOP and STAT -/

/-- Settles O1: NOP has one effect, in every state. -/
theorem nopRespondsOkAndChangesNothing : Obligations.NopRespondsOkAndChangesNothing := by
  unfold Obligations.NopRespondsOkAndChangesNothing
  exact ⟨decode_joinBeat 0x0#4, decode_joinBeat 0x0#4 0x00#8, fun _ => Effect.nop.exec_eq⟩

/-- A field of the status word holds the value whose bits stand there. -/
theorem extractLsb'_statusWord {start len : Nat} {v : BitVec len}
    (hbits : ∀ k < len, (statusWord b).getLsbD (start + k) = v.getLsbD k) :
    (statusWord b).extractLsb' start len = v := by
  refine BitVec.eq_of_getLsbD_eq fun k hk => ?_
  rw [BitVec.getLsbD_extractLsb', hbits k hk, decide_eq_true hk, Bool.true_and]

/-- The three flags of the status word (R38). -/
theorem statusWord_flags (b : Block) : (statusWord b)[0] = b.isOpen ∧
    (statusWord b)[1] = b.wvalid ∧ (statusWord b)[2] = b.fvalid :=
  ⟨by simpa using statusWord_getLsbD b 0, by simpa using statusWord_getLsbD b 1,
    by simpa using statusWord_getLsbD b 2⟩

/-- The wider fields of the status word, the two reserved ones among them (R38): every bit of a
field falls into the same branch of `statusWord_getLsbD`. -/
theorem statusWord_fields (b : Block) :
    (statusWord b).extractLsb' 3 3 = b.wdCode.toBits ∧ (statusWord b).extractLsb' 6 2 = 0#2 ∧
    (statusWord b).extractLsb' 8 8 = b.wcount ∧ (statusWord b).extractLsb' 16 8 = b.expect ∧
    (statusWord b).extractLsb' 24 8 = 0#8 := by
  refine ⟨?_, ?_, ?_, ?_, ?_⟩
  all_goals
    refine extractLsb'_statusWord fun k hk => ?_
    rw [statusWord_getLsbD]
    simp (disch := omega) only [if_pos, if_neg, Nat.add_sub_cancel_left, BitVec.getLsbD_zero]

/-- Settles O13: STAT has one effect, and the fields are read off the status word bit by bit. -/
theorem statRespondsStatusWord : Obligations.StatRespondsStatusWord := by
  unfold Obligations.StatRespondsStatusWord
  refine ⟨decode_joinBeat 0xC#4, fun _ => Effect.stat.exec_eq, fun b => ?_, statusWord_resetBlock⟩
  obtain ⟨hopen, hwvalid, hfvalid⟩ := statusWord_flags b
  exact ⟨hopen, hwvalid, hfvalid, statusWord_fields b⟩

/-! #### The reserved `op` values (R172, R188) -/

/-- The `op` bits that select a row are the row's. -/
theorem Op.eq_toBits_of_ofBits {bits : OpBits} {op : Op} (h : Op.ofBits bits = op) :
    bits = op.toBits := by
  rw [← h, Op.toBits_ofBits]

/-- E_ILL comes from the reserved commands alone (R188). -/
theorem Effect.op_of_eIll (h : Effect b i b' c d) (hc : c = .eIll) :
    i.op = .reservedD ∨ i.op = .reservedE ∨ i.op = .reservedF := by
  cases h with
  | reservedD => exact .inl rfl
  | reservedE => exact .inr (.inl rfl)
  | reservedF => exact .inr (.inr rfl)
  | _ => exact absurd hc nofun

/-- Settles O14: the three reserved commands have one effect each, which no other command has, and
the `op` bits of a beat are those of its command's row. -/
theorem reservedOpsAnswerIllegal : Obligations.ReservedOpsAnswerIllegal := by
  unfold Obligations.ReservedOpsAnswerIllegal
  refine ⟨rfl, ?reservedBeats, fun s => ⟨Effect.reservedD.exec_eq, Effect.reservedE.exec_eq,
    Effect.reservedF.exec_eq⟩, ?nothingElse⟩
  case reservedBeats =>
    rintro arg op s (rfl | rfl | rfl) <;> rw [decode_joinBeat]
    · exact Effect.reservedD.exec_eq
    · exact Effect.reservedE.exec_eq
    · exact Effect.reservedF.exec_eq
  case nothingElse =>
    intro beat s t r h hr hill
    obtain ⟨b, c, d, he, rfl⟩ := exec_next_effect h
    obtain rfl : ⟨c, d⟩ = r := Option.some.inj hr
    have hop := he.op_of_eIll hill
    rw [op_decode] at hop
    exact hop.imp Op.eq_toBits_of_ofBits (.imp Op.eq_toBits_of_ofBits Op.eq_toBits_of_ofBits)

/-! #### The soft reset (R174) -/

/-- Settles O43: the frame of no words that WD.START opens has the right length at once, so WD.END
finds its verdict OK. -/
theorem softResetIsResetButForWvalid : Obligations.SoftResetIsResetButForWvalid := by
  unfold Obligations.SoftResetIsResetButForWvalid
  intro s
  exact ⟨_, _, Effect.crcInit.execTrace_cons <| (Effect.wdStart 0#8 (Nat.zero_le _)).execTrace_cons <|
    (Effect.wdEndOk rfl rfl rfl).execTrace_cons <| Effect.mdInv.execTrace_cons rfl, rfl, rfl⟩

end Sys2Proof.Machine
end

section
/-! ### The response codes: who raises them, when, and what an error changes (R73, R181 to R193)

The four conditional refusals are read off the effects as exact conditions; the table of the codes
follows from them. A refusal leaves the block, and a verdict of WD.END closes a frame inside which
no result was valid. -/

namespace Sys2Proof.Machine

variable {b b' : Block} {i : Instr} {c : Code} {d : BitVec 32}

/-! #### Exactly when a command is refused -/

/-- R184: the two commands that need an open frame, without one. -/
theorem Effect.eSeq_iff (h : Effect b i b' c d) :
    c = .eSeq ↔ (i.op = .wdByte ∨ i.op = .wdEnd) ∧ b.isOpen = false := by
  cases h with
  | wdByteSeq _ ho | wdEndSeq ho => simp [Instr.op, ho]
  | wdByteOver _ ho | wdByte0 _ ho | wdByte1 _ ho | wdByte2 _ ho | wdEndLen ho | wdEndCrc ho
  | wdEndOk ho => simp [ho]
  | _ => simp [Instr.op]

/-- R185: the three commands that need a held result, without one. -/
theorem Effect.eNores_iff (h : Effect b i b' c d) :
    c = .eNores ↔ (i.op = .wdRdw ∧ b.wvalid = false) ∨
      (i.op = .mdConv ∧ (b.wvalid = false ∨ b.wcount ≠ 20#8)) ∨
      (i.op = .mdRdf ∧ b.fvalid = false) := by
  cases h with
  | wdRdwNores _ hv | wdRdwIdx _ hv | wdRdw _ _ hv | mdRdfNores _ hv | mdRdfIdx _ hv
  | mdRdf _ hv => simp [Instr.op, hv]
  | mdConvNores hno => simpa [Instr.op] using hno
  | mdConv _ hv hc => simp [Instr.op, hv, hc]
  | _ => simp [Instr.op]

/-- R186: the two reads of a held result, past its end. -/
theorem Effect.eIdx_iff (h : Effect b i b' c d) :
    c = .eIdx ↔ (i.op = .wdRdw ∧ b.wvalid = true ∧ b.wcount.toNat ≤ i.arg.toNat) ∨
      (i.op = .mdRdf ∧ b.fvalid = true ∧ 10 ≤ i.arg.toNat) := by
  cases h with
  | wdRdwNores _ hv | mdRdfNores _ hv => simp [Instr.op, hv]
  | wdRdwIdx _ hv hi | mdRdfIdx _ hv hi => simp [Instr.op, Instr.arg, hv, hi]
  | wdRdw _ _ _ hi | mdRdf _ _ hi => simp [Instr.op, Instr.arg, hi]
  | _ => simp [Instr.op]

/-- R187: the frame that does not fit W. -/
theorem Effect.eCap_iff (h : Effect b i b' c d) :
    c = .eCap ↔ i.op = .wdStart ∧ b.wcap < i.arg.toNat := by
  cases h with
  | wdStartCap _ hn | wdStart _ hn => simp [Instr.op, Instr.arg, hn]
  | _ => simp [Instr.op]

/-- A refusal writes nothing (R193). -/
theorem Effect.block_of_refusal (h : Effect b i b' c d) (hc : c.isRefusal = true) : b' = b := by
  cases h with
  | crcInit | crcUpd | wdStart | wdByteOver | wdByte0 | wdByte1 | wdByte2 | wdEndLen | wdEndCrc
  | wdEndOk | mdConv | mdInv => exact absurd hc nofun
  | _ => rfl

/-- Settles O34: one lemma per refusal, and one for what they leave. -/
theorem refusalsComeExactlyWhenTheRuleSays : Obligations.RefusalsComeExactlyWhenTheRuleSays := by
  unfold Obligations.RefusalsComeExactlyWhenTheRuleSays
  intro i s t r h hr
  obtain ⟨b, c, d, he, rfl⟩ := exec_next_effect h
  obtain rfl : ⟨c, d⟩ = r := Option.some.inj hr
  exact ⟨he.eSeq_iff, he.eNores_iff, he.eIdx_iff, he.eCap_iff, he.block_of_refusal⟩

/-! #### The table of the codes -/

/-- The checksum verdict comes from the two commands that test a checksum (R182). -/
theorem Effect.op_of_eCrc (h : Effect b i b' c d) (hc : c = .eCrc) :
    i.op = .wdEnd ∨ i.op = .crcChk := by
  cases h with
  | wdEndCrc => exact .inl rfl
  | crcChkBad => exact .inr rfl
  | _ => exact absurd hc nofun

/-- The length verdict comes from WD.END alone (R183). -/
theorem Effect.op_of_eLen (h : Effect b i b' c d) (hc : c = .eLen) : i.op = .wdEnd := by
  cases h with
  | wdEndLen => rfl
  | _ => exact absurd hc nofun

/-- A command whose rule defines no data responds zero, whatever its code (R73). -/
theorem Effect.data_of_definesNone (h : Effect b i b' c d) (hi : definesData i = false) :
    d = 0#32 := by
  cases h with
  | crcGet | wdEndOk | wdRdw | mdRdf | stat => exact absurd hi nofun
  | _ => rfl

/-- Settles O33: a refusal's commands are part of its exact condition. -/
theorem codesAreRaisedOnlyByTheirCommands : Obligations.CodesAreRaisedOnlyByTheirCommands := by
  unfold Obligations.CodesAreRaisedOnlyByTheirCommands
  refine ⟨⟨rfl, rfl, rfl, rfl, rfl, rfl, rfl, rfl⟩, fun i s t h => ?_⟩
  obtain ⟨b, c, d, he, rfl⟩ := exec_next_effect h
  exact ⟨⟨c, d⟩, rfl, he.op_of_eCrc, he.op_of_eLen,
    fun hc => (he.eSeq_iff.mp hc).1,
    fun hc => (he.eNores_iff.mp hc).imp And.left (.imp And.left And.left),
    fun hc => (he.eIdx_iff.mp hc).imp And.left And.left,
    fun hc => (he.eCap_iff.mp hc).1,
    he.op_of_eIll,
    fun hd => hd.elim he.data_of_error he.data_of_definesNone⟩

/-! #### What a verdict changes -/

/-- A checksum verdict of CRC.CHK writes nothing (R109). -/
theorem Effect.block_of_eCrc (h : Effect b i b' c d) (hc : c = .eCrc) (hend : i ≠ .wdEnd) :
    b' = b := by
  cases h with
  | crcChkBad => rfl
  | wdEndCrc => exact absurd rfl hend
  | _ => exact absurd hc nofun

/-- The length verdict of WD.END closes the frame and is recorded (R131). -/
theorem Effect.block_of_eLen_end (h : Effect b .wdEnd b' .eLen d) :
    b' = { b with isOpen := false, wdCode := .eLen } := by
  cases h; rfl

/-- The checksum verdict of WD.END closes the frame and is recorded (R131). -/
theorem Effect.block_of_eCrc_end (h : Effect b .wdEnd b' .eCrc d) :
    b' = { b with isOpen := false, wdCode := .eCrc } := by
  cases h; rfl

/-- A frame that WD.END rejects leaves no result: none was valid inside it (R40 c, d). -/
theorem Effect.no_result_of_rejected_end (h : Effect b .wdEnd b' c d) (hb : b.Inv)
    (hok : c ≠ .ok) (hseq : c ≠ .eSeq) : b'.wvalid = false ∧ b'.wcount = 0#8 := by
  obtain ⟨hv, -, hcount⟩ := hb.open_clears (h.isOpen_of_end_verdict hseq)
  exact ⟨(h.wvalid_of_failed_end hok).trans hv,
    (h.wcount_of_end.trans (if_neg hok)).trans hcount⟩

/-- Settles O32: a refusal and a verdict of CRC.CHK leave the block; a verdict of WD.END closes a
frame, and inside a frame no result is valid. -/
theorem errorsChangeOnlyWhatTheRuleSays : Obligations.ErrorsChangeOnlyWhatTheRuleSays := by
  unfold Obligations.ErrorsChangeOnlyWhatTheRuleSays
  intro i s t r hb h hr
  obtain ⟨b, c, d, he, rfl⟩ := exec_next_effect h
  obtain rfl : ⟨c, d⟩ = r := Option.some.inj hr
  refine ⟨he.block_of_refusal, he.block_of_eCrc, ?lengthVerdict, ?checksumVerdict⟩
  case lengthVerdict =>
    rintro rfl (rfl : c = .eLen)
    exact ⟨he.block_of_eLen_end, he.no_result_of_rejected_end hb nofun nofun⟩
  case checksumVerdict =>
    rintro rfl (rfl : c = .eCrc)
    exact ⟨he.block_of_eCrc_end, he.no_result_of_rejected_end hb nofun nofun⟩

end Sys2Proof.Machine
end

section
/-! ### The edge of the reference timing (R209, R210, R213, R223)

A step takes the first of the listed pins and is the edge with them; each obligation is one kind of
edge, read at the state it leaves. -/

namespace Sys2Proof.Machine

/-! #### What the pins show -/

theorem cmdReady_of_rst {p : Pins} (h : p.rst = true) : p.cmdReady = false := by
  simp [Pins.cmdReady, h]

theorem accepted_of_command {p : Pins} (hr : p.rst = false) (hv : p.cmdValid = true) :
    p.accepted = true :=
  (accepted_iff p).mpr ⟨hr, hv⟩

/-- Without `cmd_ready` no command is accepted (R209). -/
theorem accepted_of_not_ready {p : Pins} (h : p.cmdReady = false) : p.accepted = false := by
  simp [Pins.accepted, h]

theorem accepted_of_no_beat {p : Pins} (h : p.cmdValid = false) : p.accepted = false := by
  simp [Pins.accepted, h]

/-- The response pins show a response that is on the channel (R223). -/
theorem responsePins_of_response {s : State} {r : Response} (h : s.rsp = some r) :
    s.rspValid = true ∧ s.rspCode = r.code.toBits ∧ s.rspData = r.data := by
  simp [State.rspValid, State.rspCode, State.rspData, h]

/-- The twelve low bits of a table word below 4096 are the word. -/
theorem tableBeat_of_lt {w : Nat} (h : w < 4096) : tableBeat 16 w = BitVec.ofNat 12 w := by
  rw [tableBeat, Nat.mod_eq_of_lt (by omega)]

/-! #### The step at each kind of edge -/

variable {s : State} {p : Pins} {es : List Pins}

theorem step_of_rst (hi : s.inputs = p :: es) (hr : p.rst = true) :
    step s = .next (resetEvent { s with inputs := es }) :=
  (step_of_inputs hi).trans (clockEdge_of_rst hr)

theorem step_of_command (hi : s.inputs = p :: es) (ha : p.accepted = true)
    (hs : s.resetSeen = true) : step s = exec (decode p.beat) { s with inputs := es } :=
  (step_of_inputs hi).trans (clockEdge_of_command ha hs)

theorem step_of_early_command (hi : s.inputs = p :: es) (ha : p.accepted = true)
    (hs : s.resetSeen = false) : step s = .refused .beforeFirstReset :=
  (step_of_inputs hi).trans (clockEdge_of_early_command ha hs)

/-- A step that accepts a command and completes leaves a response: it was no refusal, so the block had
been reset and the command ran. -/
theorem exists_rsp_of_step_command {t : State} (hi : s.inputs = p :: es) (ha : p.accepted = true)
    (h : step s = .next t) : ∃ r, t.rsp = some r := by
  cases hs : s.resetSeen with
  | true => exact exec_next_rsp ((step_of_command hi ha hs).symm.trans h)
  | false => exact absurd ((step_of_early_command hi ha hs).symm.trans h) nofun

/-! #### The obligations on the edge -/

/-- Settles O19: the beat on the pins is the one that was presented, and a table word below 4096 is
its own low twelve bits. -/
theorem stepRunsDecodedCommand : Obligations.StepRunsDecodedCommand := by
  unfold Obligations.StepRunsDecodedCommand
  constructor
  · intro s p es hi hr hv hs
    exact step_of_command hi (accepted_of_command hr hv) hs
  · intro s w hw
    have hstep : step (s.withFetchWord 16 w) =
        exec (decode (Pins.ofBeat (tableBeat 16 w)).beat) { s with resetSeen := true } :=
      step_of_command rfl (accepted_ofBeat _) rfl
    rw [hstep, beat_ofBeat, joinBeat_fields, tableBeat_of_lt hw]

/-- Settles O20: with `rst` = 1 the edge is the reset event, whatever else the pins show. -/
theorem resetEdgeResetsWhateverIsPresented : Obligations.ResetEdgeResetsWhateverIsPresented := by
  unfold Obligations.ResetEdgeResetsWhateverIsPresented
  intro s p es hi hr
  have hready := cmdReady_of_rst hr
  exact ⟨hready, accepted_of_not_ready hready, _, step_of_rst hi hr, rfl, rfl, rfl, rfl⟩

/-- Settles O21: without a command the edge is idle; with one, a step that completes carries its
response. -/
theorem referenceTimingOfTheEdge : Obligations.ReferenceTimingOfTheEdge := by
  unfold Obligations.ReferenceTimingOfTheEdge
  refine ⟨fun _ => rfl, fun s p es hi hr hv => ?_, fun s p es t hi hr hv h => ?_⟩
  · exact ⟨_, step_of_no_command hi hr (accepted_of_no_beat hv), rfl, rfl, rfl, rfl, rfl, rfl⟩
  · obtain ⟨r, hrsp⟩ := exists_rsp_of_step_command hi (accepted_of_command hr hv) h
    exact ⟨r, hrsp, responsePins_of_response hrsp⟩

/-- Settles O22: at power-up no reset has been seen, and a reset edge is the reset event. -/
theorem noCommandBeforeTheFirstReset : Obligations.NoCommandBeforeTheFirstReset := by
  unfold Obligations.NoCommandBeforeTheFirstReset
  intro b p es hr hv
  exact ⟨step_of_early_command rfl (accepted_of_command hr hv) rfl,
    _, step_of_rst rfl rfl, rfl, rfl⟩

end Sys2Proof.Machine
end

section
/-! ### The responses after a reset (R211)

The reset event leaves `b0`, `b1`, W and F, so after it two blocks may differ there and nowhere else.
A response reads one of these items only after a command since the reset has written it: `b0` and `b1`
inside a group, W below `gidx` and `wcount`, F while `fvalid` is set. `Block.Hides` says that two blocks
differ only outside these parts; the reset event establishes it and every command keeps it, so two
machines that it relates stay in step at the ports. -/

namespace Sys2Proof.Machine

variable {s s' : State} {b b' : Block} {i : Instr} {c : Code} {d : BitVec 32} {x y : Byte}
  {W : List Word} {F : Vector Pattern 10}

/-! #### Blocks that differ where no response can tell -/

/-- The block with other contents in the four items that the reset event leaves (R211). -/
def Block.withUnreset (b : Block) (x y : Byte) (W : List Word) (F : Vector Pattern 10) : Block :=
  { b with b0 := x, b1 := y, W := W, F := F }

/-- No response tells `b.withUnreset x y W F` from `b`: the four items agree wherever the rest of the
block says that they have been written since the reset. -/
structure Block.Hides (b : Block) (x y : Byte) (W : List Word) (F : Vector Pattern 10) : Prop where
  /-- the first byte of a group counts from `phase` 1 on (R29) -/
  b0 : b.phase ≠ .p0 → x = b.b0
  /-- the second byte of a group counts in `phase` 2 (R29) -/
  b1 : b.phase = .p2 → y = b.b1
  /-- the capacity is the same -/
  wcap : W.length = b.wcap
  /-- the words of the frame so far, and those of a valid result (R23) -/
  words : ∀ k, k < b.gidx.toNat ∨ k < b.wcount.toNat → W[k]? = b.W[k]?
  /-- the float registers count while `fvalid` is set (R26) -/
  floats : b.fvalid = true → F = b.F

/-- After the reset event nothing in the four items counts. -/
theorem hides_resetBlock (hcap : W.length = b.wcap) : (resetBlock b).Hides x y W F where
  b0 := fun h => absurd rfl h
  b1 := nofun
  wcap := hcap
  words := by simp
  floats := nofun

/-- The words of a valid result are the same in both. -/
theorem Block.Hides.take_eq (h : b.Hides x y W F) :
    W.take b.wcount.toNat = b.W.take b.wcount.toNat := by
  refine List.ext_getElem? fun k => ?_
  by_cases hk : k < b.wcount.toNat
  · simpa [List.getElem?_take, hk] using h.words k (.inr hk)
  · simp [hk]

/-- The word of a complete group goes to the same entry of both (R23). -/
theorem Block.Hides.words_set (h : b.Hides x y W F) (w : Word) {k : Nat}
    (hk : k < (b.gidx + 1#8).toNat ∨ k < b.wcount.toNat) :
    (W.set b.gidx.toNat w)[k]? = (b.W.set b.gidx.toNat w)[k]? := by
  by_cases hw : b.gidx.toNat = k
  · simp [hw, List.getElem?_set, h.wcap]
  · rw [List.getElem?_set_ne hw, List.getElem?_set_ne hw]
    have hle : (b.gidx + 1#8).toNat ≤ b.gidx.toNat + 1 := by
      rw [BitVec.toNat_add]; exact Nat.mod_le _ _
    exact h.words k (by omega)

/-- Every command keeps the difference hidden: it takes the same path on both blocks and gives the same
response. -/
theorem Effect.exists_hidden (he : Effect b i b' c d) (h : b.Hides x y W F) :
    ∃ x' y' W' F', Effect (b.withUnreset x y W F) i (b'.withUnreset x' y' W' F') c d ∧
      b'.Hides x' y' W' F' := by
  cases he with
  | wdStart n hn =>
    exact ⟨x, y, W, F, .wdStart n (hn.trans_eq h.wcap.symm),
      { h with b0 := fun hp => absurd rfl hp, b1 := nofun, words := by simp }⟩
  | wdStartCap n hn => exact ⟨x, y, W, F, .wdStartCap n (h.wcap.trans_lt hn), h⟩
  | wdByteOver z ho hg => exact ⟨x, y, W, F, .wdByteOver z ho hg, { h with }⟩
  | wdByte0 z ho hg hp =>
    exact ⟨z, y, W, F, .wdByte0 z ho hg hp, { h with b0 := fun _ => rfl, b1 := nofun }⟩
  | wdByte1 z ho hg hp =>
    have hx : x = b.b0 := h.b0 (by simp [hp])
    exact ⟨x, z, W, F, .wdByte1 z ho hg hp, { h with b0 := fun _ => hx, b1 := fun _ => rfl }⟩
  | wdByte2 z ho hg hp hi =>
    obtain rfl : x = b.b0 := h.b0 (by simp [hp])
    obtain rfl : y = b.b1 := h.b1 hp
    exact ⟨b.b0, b.b1, W.set b.gidx.toNat (b.b0 ++ b.b1), F,
      .wdByte2 z ho hg hp (hi.trans_eq h.wcap.symm),
      { h with
        b0 := fun hp => absurd rfl hp
        b1 := nofun
        wcap := by simpa [Block.wcap] using h.wcap
        words := fun k hk => h.words_set _ hk }⟩
  | wdEndLen ho hl => exact ⟨x, y, W, F, .wdEndLen ho hl, { h with }⟩
  | wdEndCrc ho hl hc => exact ⟨x, y, W, F, .wdEndCrc ho hl hc, { h with }⟩
  | wdEndOk ho hl hc =>
    obtain ⟨-, -, hg⟩ := (frameLengthOk_iff b).mp hl
    exact ⟨x, y, W, F, .wdEndOk ho hl hc,
      { h with words := fun k hk => h.words k (.inl (by simpa [hg] using hk)) }⟩
  | wdRdw k w hv hi hw =>
    exact ⟨x, y, W, F, .wdRdw k w hv hi ((h.words _ (.inr hi)).trans hw), h⟩
  | mdConv ws hv hc hw =>
    have htake : W.take 20 = b.W.take 20 := by simpa [hc] using h.take_eq
    exact ⟨x, y, W, _, .mdConv ws hv hc (hw.trans htake.symm), { h with floats := fun _ => rfl }⟩
  | mdRdf k hv hi =>
    obtain rfl : F = b.F := h.floats hv
    exact ⟨x, y, W, b.F, .mdRdf (b := b.withUnreset x y W b.F) k hv hi, h⟩
  | mdInv => exact ⟨x, y, W, F, .mdInv, { h with floats := nofun }⟩
  | crcInit => exact ⟨x, y, W, F, .crcInit, { h with }⟩
  | crcUpd z => exact ⟨x, y, W, F, .crcUpd z, { h with }⟩
  | _ => exact ⟨x, y, W, F, by constructor <;> assumption, h⟩

/-! #### Machines that look alike at the ports -/

/-- Two machines, both reset, that meet the same pins and whose blocks differ only where no response
can tell. -/
structure State.LooksLike (s s' : State) : Prop where
  inv : s.block.Inv
  reset : s.resetSeen = true
  reset' : s'.resetSeen = true
  inputs : s'.inputs = s.inputs
  block : ∃ x y W F, s'.block = s.block.withUnreset x y W F ∧ s.block.Hides x y W F

/-- The reset event makes machines of the same legal `WCAP` look alike, whatever was in them. -/
theorem looksLike_resetEvent (hge : Config.wcapMin ≤ s.block.wcap)
    (hle : s.block.wcap ≤ Config.wcapMax) (hcap : s'.block.wcap = s.block.wcap)
    (hi : s'.inputs = s.inputs) : (resetEvent s).LooksLike (resetEvent s') where
  inv := resetBlock_inv hge hle
  reset := rfl
  reset' := rfl
  inputs := hi
  block := ⟨_, _, _, _, rfl, hides_resetBlock hcap⟩

theorem State.LooksLike.wcap_eq (h : s.LooksLike s') : s'.block.wcap = s.block.wcap := by
  obtain ⟨x, y, W, F, hb, hid⟩ := h.block
  rw [hb]
  exact hid.wcap

theorem State.LooksLike.after_takePins (h : s.LooksLike s') : (takePins s).LooksLike (takePins s') :=
  { h with inputs := congrArg List.tail h.inputs }

/-- At every edge two machines that look alike both complete, show the same response channel, and look
alike again. -/
theorem State.LooksLike.exists_clockEdge (h : s.LooksLike s') (p : Pins) :
    ∃ t t', clockEdge p s = .next t ∧ clockEdge p s' = .next t' ∧ t'.rsp = t.rsp ∧
      t.LooksLike t' := by
  cases hr : p.rst with
  | true =>
    exact ⟨_, _, clockEdge_of_rst hr, clockEdge_of_rst hr, rfl,
      looksLike_resetEvent h.inv.wcap_ge h.inv.wcap_le h.wcap_eq h.inputs⟩
  | false =>
    cases ha : p.accepted with
    | false =>
      exact ⟨_, _, clockEdge_of_no_command hr ha, clockEdge_of_no_command hr ha, rfl, { h with }⟩
    | true =>
      obtain ⟨x, y, W, F, hb, hid⟩ := h.block
      obtain ⟨b, c, d, he⟩ := h.inv.exists_effect (decode p.beat)
      obtain ⟨x', y', W', F', he', hid'⟩ := he.exists_hidden hid
      exact ⟨_, _, clockEdge_of_effect h.reset ha he, clockEdge_of_effect h.reset' ha (hb ▸ he'),
        rfl, { h with inv := he.keeps_inv h.inv, block := ⟨x', y', W', F', rfl, hid'⟩ }⟩

theorem State.LooksLike.exists_step (h : s.LooksLike s') :
    ∃ t t', step s = .next t ∧ step s' = .next t' ∧ t'.rsp = t.rsp ∧ t.LooksLike t' := by
  have hpins : nextPins s' = nextPins s := congrArg (List.headD · Pins.idle) h.inputs
  unfold step
  rw [hpins]
  exact h.after_takePins.exists_clockEdge (nextPins s)

/-- Two steps that show the same response channel go before two equal traces. -/
theorem portTrace_succ_eq {t t' : State} {k : Nat} (hstep : step s = .next t)
    (hstep' : step s' = .next t') (hrsp : t'.rsp = t.rsp)
    (h : portTrace k t = portTrace k t' ∧ (portTrace k t).length = k) :
    portTrace (k + 1) s = portTrace (k + 1) s' ∧ (portTrace (k + 1) s).length = k + 1 := by
  obtain ⟨heq, hlen⟩ := h
  rw [portTrace_succ_of_next hstep, portTrace_succ_of_next hstep', hrsp, ← heq]
  exact ⟨rfl, congrArg (· + 1) hlen⟩

/-- Machines that look alike show the same at the ports for any number of edges, and neither stops. -/
theorem State.LooksLike.portTrace_eq (h : s.LooksLike s') (k : Nat) :
    portTrace k s = portTrace k s' ∧ (portTrace k s).length = k := by
  induction k generalizing s s' with
  | zero => exact ⟨rfl, rfl⟩
  | succ k ih =>
    obtain ⟨t, t', hstep, hstep', hrsp, ht⟩ := h.exists_step
    exact portTrace_succ_eq hstep hstep' hrsp (ih ht)

/-- Settles O24: the reset edge makes the two machines look alike. -/
theorem responsesAfterResetDoNotDependOnThePast :
    Obligations.ResponsesAfterResetDoNotDependOnThePast := by
  unfold Obligations.ResponsesAfterResetDoNotDependOnThePast
  intro s s' es k hcap hge hle hi hi'
  cases k with
  | zero => exact ⟨rfl, rfl⟩
  | succ k =>
    have hlike : (resetEvent { s with inputs := es }).LooksLike (resetEvent { s' with inputs := es }) :=
      looksLike_resetEvent hge hle hcap.symm rfl
    exact portTrace_succ_eq (step_of_rst hi rfl) (step_of_rst hi' rfl) rfl (hlike.portTrace_eq k)

end Sys2Proof.Machine
end

section
/-! ### The Checksum Engine and the other commands do not interfere (R28, R221)

A CE command acts on `crc` alone and any other command neither reads nor writes it. The block of a
mixed run is therefore, command by command, the block of the other commands' run with the `crc` of the
CE commands' run. -/

namespace Sys2Proof.Machine

variable {s u v : State} {b b' : Block} {i : Instr} {cs : List Instr} {c : Code} {d : BitVec 32}

/-- A CE command finds `crc`, leaves `crc` and responds from `crc`, whatever else the block holds. -/
theorem exists_effect_of_isCe (hi : isCe i = true) (x : Byte) :
    ∃ y c d, ∀ b : Block, Effect { b with crc := x } i { b with crc := y } c d := by
  cases i with
  | crcInit => exact ⟨_, _, _, fun _ => .crcInit⟩
  | crcUpd z => exact ⟨crc8Update x z, _, _, fun b => .crcUpd (b := { b with crc := x }) z⟩
  | crcGet => exact ⟨x, _, x.zeroExtend 32, fun b => .crcGet (b := { b with crc := x })⟩
  | crcChk z =>
    by_cases h : x = z
    · exact ⟨_, _, _, fun _ => .crcChkOk z h⟩
    · exact ⟨_, _, _, fun _ => .crcChkBad z h⟩
  | _ => exact absurd hi nofun

/-- A command other than the CE's has the same effect whatever `crc` is, and leaves `crc`. -/
theorem Effect.with_crc (he : Effect b i b' c d) (hi : isCe i = false) (x : Byte) :
    Effect { b with crc := x } i { b' with crc := x } c d := by
  cases he with
  | crcInit | crcUpd | crcGet | crcChkOk | crcChkBad => exact absurd hi nofun
  | _ => constructor <;> assumption

/-- The mixed list `cs` from `s` gives the block that its CE commands from `u` and its other commands
from `v` give together, and each side's responses. -/
def SplitsIntoSides (cs : List Instr) (s u v : State) : Prop :=
  ∃ t u' v' tr tru trv, execTrace cs s = .next (t, tr) ∧
    execTrace (cs.filter isCe) u = .next (u', tru) ∧
    execTrace (cs.filter fun i => !isCe i) v = .next (v', trv) ∧
    t.block = { v'.block with crc := u'.block.crc } ∧
    (tr.filter fun p => isCe p.1) = tru ∧ (tr.filter fun p => !isCe p.1) = trv

/-- A CE command that has one effect in the mixed run and in the CE run belongs to the CE side. -/
theorem SplitsIntoSides.cons_ce (hi : isCe i = true) (hs : Effect s.block i b c d)
    (hu : Effect u.block i b' c d) (h : SplitsIntoSides cs (s.after b c d) (u.after b' c d) v) :
    SplitsIntoSides (i :: cs) s u v := by
  obtain ⟨t, u', v', tr, tru, trv, ht, hu', hv', hblock, hce, hother⟩ := h
  refine ⟨t, u', v', (i, ⟨c, d⟩) :: tr, (i, ⟨c, d⟩) :: tru, trv, hs.execTrace_cons ht,
    ?_, ?_, hblock, ?_, ?_⟩
  · rw [List.filter_cons_of_pos hi]; exact hu.execTrace_cons hu'
  · rwa [List.filter_cons_of_neg (by simp [hi])]
  · simp [hi, hce]
  · simpa [hi] using hother

/-- Any other command that has one effect in the mixed run and in the others' run belongs to the other
side. -/
theorem SplitsIntoSides.cons_other (hi : isCe i = false) (hs : Effect s.block i b c d)
    (hv : Effect v.block i b' c d) (h : SplitsIntoSides cs (s.after b c d) u (v.after b' c d)) :
    SplitsIntoSides (i :: cs) s u v := by
  obtain ⟨t, u', v', tr, tru, trv, ht, hu', hv', hblock, hce, hother⟩ := h
  refine ⟨t, u', v', (i, ⟨c, d⟩) :: tr, tru, (i, ⟨c, d⟩) :: trv, hs.execTrace_cons ht,
    ?_, ?_, hblock, ?_, ?_⟩
  · rwa [List.filter_cons_of_neg (by simp [hi])]
  · rw [List.filter_cons_of_pos (by simp [hi])]; exact hv.execTrace_cons hv'
  · simpa [hi] using hce
  · simp [hi, hother]

/-- The simulation: the mixed run holds the block of the others' run with the `crc` of the CE run. -/
theorem splitsIntoSides_of_block_eq (hv : v.block.Inv)
    (hs : s.block = { v.block with crc := u.block.crc }) : SplitsIntoSides cs s u v := by
  induction cs generalizing s u v with
  | nil => exact ⟨s, u, v, [], [], [], rfl, rfl, rfl, hs, rfl, rfl⟩
  | cons i cs ih =>
    cases hi : isCe i with
    | true =>
      obtain ⟨y, c, d, he⟩ := exists_effect_of_isCe hi u.block.crc
      exact .cons_ce hi (hs ▸ he v.block) (he u.block) (ih hv rfl)
    | false =>
      obtain ⟨b, c, d, he⟩ := hv.exists_effect i
      exact .cons_other hi (hs ▸ he.with_crc hi u.block.crc) he (ih (he.keeps_inv hv) rfl)

/-- Settles O42: the three runs start from one state. -/
theorem checksumEngineAndFramesDoNotInterfere : Obligations.ChecksumEngineAndFramesDoNotInterfere := by
  unfold Obligations.ChecksumEngineAndFramesDoNotInterfere
  exact fun _ _ hs => splitsIntoSides_of_block_eq hs rfl

end Sys2Proof.Machine
end
